-- ==== Sys2Proof/Word.lean ====
section
/-! DEFINITION. The words of the FMDB oscillator core: samples, command words, response words. -/

namespace Sys2Proof

/-- One binary32 bit pattern (00_scope.md R6): a sample, a phase, a frequency, a rate, a fraction. -/
abbrev Binary32 := BitVec 32

/-- One command word `cmd[39:0]` (30_encoding.md R70). -/
abbrev CommandWord := BitVec 40

/-- One response word `rsp[35:0]` (30_encoding.md R79). -/
abbrev ResponseWord := BitVec 36

end Sys2Proof
end

