-- ==== Sys2Proof/Syntax.lean ====
section
/-! DEFINITION. The eight commands (30_encoding.md R74), one constructor per row of the opcode table. -/

namespace Sys2Proof

/-- A command with its operand already taken out of the word (R71 to R73). -/
inductive Instr where
  /-- INIT, format F: the sample rate (R90). -/
  | init (rate : Binary32)
  /-- PROCESS, format N (R100). -/
  | process
  /-- SETCF, format F: the carrier frequency in Hz (R130). -/
  | setcf (hz : Binary32)
  /-- SETMF, format F: the modulator frequency in Hz (R131). -/
  | setmf (hz : Binary32)
  /-- SETMR, format F: the modulation range as a fraction of the buffer length (R132). -/
  | setmr (fraction : Binary32)
  /-- SETMO, format F: the modulation centre as a fraction of the buffer length (R133). -/
  | setmo (fraction : Binary32)
  /-- SETSYNC, format B (R134). -/
  | setsync (enabled : Bool)
  /-- SETINCL, format B (R135). -/
  | setincl (enabled : Bool)
  deriving DecidableEq, Repr

end Sys2Proof
end

