-- ==== Sys2Proof/WellFormed.lean ====
section
/-! DEFINITION. Well-formedness: of a command as syntax, and of a 40-bit word as one row of the opcode table. -/

namespace Sys2Proof

/-- One row of the opcode table (30_encoding.md R74): `w` encodes the command when `w AND mask = matchWord`. -/
structure OpcodeRow where
  mnemonic : String
  matchWord : CommandWord
  mask : CommandWord
  deriving DecidableEq, Repr

/-- The table of R74, in its order. -/
def opcodeTable : List OpcodeRow :=
  [ ⟨"INIT",    0x0100000000#40, 0xFF00000000#40⟩,
    ⟨"PROCESS", 0x0200000000#40, 0xFFFFFFFFFF#40⟩,
    ⟨"SETCF",   0x1000000000#40, 0xFF00000000#40⟩,
    ⟨"SETMF",   0x1100000000#40, 0xFF00000000#40⟩,
    ⟨"SETMR",   0x1200000000#40, 0xFF00000000#40⟩,
    ⟨"SETMO",   0x1300000000#40, 0xFF00000000#40⟩,
    ⟨"SETSYNC", 0x1400000000#40, 0xFFFFFFFFFE#40⟩,
    ⟨"SETINCL", 0x1500000000#40, 0xFFFFFFFFFE#40⟩ ]

/-- The word carries this row's command. -/
def OpcodeRow.matches (row : OpcodeRow) (w : CommandWord) : Bool :=
  w &&& row.mask == row.matchWord

/-- The word is legal: some row of the table matches it. Every other word is illegal (R75). -/
def legalWord (w : CommandWord) : Bool :=
  opcodeTable.any (fun row => row.matches w)

/-- Which row of the table a command belongs to. -/
def Instr.mnemonic : Instr → String
  | .init _    => "INIT"
  | .process   => "PROCESS"
  | .setcf _   => "SETCF"
  | .setmf _   => "SETMF"
  | .setmr _   => "SETMR"
  | .setmo _   => "SETMO"
  | .setsync _ => "SETSYNC"
  | .setincl _ => "SETINCL"

/-- Every command of the syntax is well formed: each of the 2^32 operand patterns of format F is a legal
encoding, a boolean is one bit, and the must-be-zero bits are no part of the syntax (R71, R73). What can be
ill formed is a word, and `legalWord` refuses those. -/
def Instr.wf : Instr → Bool
  | .init _    => true
  | .process   => true
  | .setcf _   => true
  | .setmf _   => true
  | .setmr _   => true
  | .setmo _   => true
  | .setsync _ => true
  | .setincl _ => true

end Sys2Proof
end

