-- ==== Sys2Proof/Decode.lean ====
section
/-! DEFINITION. The decoder, total on every 40-bit word, and after it the encoder (30_encoding.md R70 to R78). -/

namespace Sys2Proof

/-- `cmd[39:32]` (R70). -/
def opcodeField (w : CommandWord) : BitVec 8 := w.extractLsb' 32 8

/-- `cmd[31:0]` (R70). -/
def operandField (w : CommandWord) : BitVec 32 := w.extractLsb' 0 32

/-- The three ways R75 gives for a word to be illegal, the reserved opcodes of R76 named apart. -/
inductive DecodeError where
  /-- R75 (a): the opcode is none of the eight, and is not one of the two set aside. -/
  | unassignedOpcode (op : BitVec 8)
  /-- R76: `0x16` or `0x17`, set aside for the omitted external-input pair, illegal like any unassigned opcode. -/
  | reservedOpcode (op : BitVec 8)
  /-- R75 (b): PROCESS with a non-zero operand field. -/
  | operandNotZero (arg : BitVec 32)
  /-- R75 (c): SETSYNC or SETINCL with a non-zero bit among `cmd[31:1]`. -/
  | booleanNotOneBit (op : BitVec 8) (arg : BitVec 32)
  deriving DecidableEq, Repr

/-- Format B (R71, R73): the operand is `cmd[0]`, and `cmd[31:1]` must be zero. -/
def decodeBoolean (mk : Bool → Instr) (op : BitVec 8) (arg : BitVec 32) : Except DecodeError Instr :=
  if arg = 0#32 then .ok (mk false)
  else if arg = 1#32 then .ok (mk true)
  else .error (.booleanNotOneBit op arg)

/-- Format N (R71): the operand field must be zero. -/
def decodeNoOperand (i : Instr) (arg : BitVec 32) : Except DecodeError Instr :=
  if arg = 0#32 then .ok i else .error (.operandNotZero arg)

/-- The command a word forms, or why it is illegal (R74 to R77). -/
def decode (w : CommandWord) : Except DecodeError Instr :=
  let op := opcodeField w
  let arg := operandField w
  if op = 0x01#8 then .ok (.init arg)
  else if op = 0x02#8 then decodeNoOperand .process arg
  else if op = 0x10#8 then .ok (.setcf arg)
  else if op = 0x11#8 then .ok (.setmf arg)
  else if op = 0x12#8 then .ok (.setmr arg)
  else if op = 0x13#8 then .ok (.setmo arg)
  else if op = 0x14#8 then decodeBoolean .setsync op arg
  else if op = 0x15#8 then decodeBoolean .setincl op arg
  else if op = 0x16#8 ∨ op = 0x17#8 then .error (.reservedOpcode op)
  else .error (.unassignedOpcode op)

/-- `{op, arg}`: the opcode in `cmd[39:32]`, the operand in `cmd[31:0]` (R70). -/
def commandWord (op : BitVec 8) (arg : BitVec 32) : CommandWord := op ++ arg

/-- The operand field of a boolean: 31 zero bits and the bit (R71, format B). -/
def booleanOperand (b : Bool) : BitVec 32 := if b then 1#32 else 0#32

/-- The word of a command (R74). -/
def encode : Instr → CommandWord
  | .init rate   => commandWord 0x01#8 rate
  | .process     => commandWord 0x02#8 0#32
  | .setcf hz    => commandWord 0x10#8 hz
  | .setmf hz    => commandWord 0x11#8 hz
  | .setmr x     => commandWord 0x12#8 x
  | .setmo x     => commandWord 0x13#8 x
  | .setsync b   => commandWord 0x14#8 (booleanOperand b)
  | .setincl b   => commandWord 0x15#8 (booleanOperand b)

/-- The 40-bit word whose low `nbits` bits are those of `w` and whose other bits are zero. -/
def tableWord (nbits w : Nat) : CommandWord := BitVec.ofNat 40 (w % 2 ^ nbits)

/-- What the decoder reads from the word with these bits (bit 0 the least significant, as the table numbers them). -/
def decodeTableWord (nbits w : Nat) : Option Instr :=
  match decode (tableWord nbits w) with
  | .ok i => some i
  | .error _ => none

end Sys2Proof
end

