-- ==== Sys2Proof/Machine/State.lean ====
section
/-! DEFINITION. The state of one oscillator instance (10_state.md R20), its port (30_encoding.md R83) and the host's moves. -/

namespace Sys2Proof.Machine

/-- Why the machine stops with a fault. -/
inductive Fault where
  /-- Raised by PROCESS's buffer accesses when an index is not below `bufLen`: such an address does not exist
  (20_memory.md R51, R56). SAFE: R57 says no command forms such an index, and no state that keeps the cursor
  invariant (R39) reaches it. -/
  | bufferIndexOutOfRange (index : Int)
  deriving DecidableEq, Repr

/-- Why the model gives a command no meaning. -/
inductive Refusal where
  /-- Raised by an arm of `exec` for a command without a meaning. SAFE. No arm of this model raises it. -/
  | notModelled (mnemonic : String)
  deriving DecidableEq, Repr

/-- The three exceptions (60_exceptions.md R150). -/
inductive Exception where
  /-- `ERR_ILLEGAL_CMD` (R151). -/
  | illegalCmd
  /-- `ERR_NOT_INIT` (R152). -/
  | notInit
  /-- `ERR_BAD_RATE` (R153). -/
  | badRate
  deriving DecidableEq, Repr

/-- The status of a response (30_encoding.md R80). -/
inductive Status where
  | ok
  | error (e : Exception)
  deriving DecidableEq, Repr

/-- What the host may do at the port (70_reset_and_hazards.md R180). There is no move that changes a presented
word, none that drives the port from a second source, and none that cancels a command. -/
inductive HostMove where
  /-- `rst` = 1 at one rising edge (R170). -/
  | reset
  /-- `cmd_valid` = 1 with this word, held until the core takes it (R83). -/
  | command (w : CommandWord)
  /-- `rsp_ready` = 1: the host takes the response presented, if there is one (R83). -/
  | takeResponse
  deriving DecidableEq, Repr

/-- The delay-buffer memory (20_memory.md R51): samples by index, in canonical form (`Memory.wf`): indices strictly
rising, no entry +0.0, and an index that is not listed holds +0.0, which is what INIT's clear leaves (R90 I4). -/
structure Memory where
  cells : List (Nat × Binary32)
  deriving DecidableEq, Repr

/-- The whole state. The first fifteen fields are the table of R20. -/
structure State where
  /-- R21: an INIT has been accepted since hardware reset. -/
  initialized : Bool
  /-- R22: some command has been rejected since hardware reset. -/
  errSticky : Bool
  /-- R23: the operand of the last accepted INIT, not floored. -/
  sampleRate : Binary32
  /-- R24: L, the buffer length in samples. -/
  bufLen : Nat
  /-- R25: the delay buffer. -/
  buffer : Memory
  /-- R26 -/
  writeIndex : Nat
  /-- R27 -/
  readIndex : Nat
  /-- R28: θ. -/
  carrierPhase : Binary32
  /-- R29: β. -/
  modulatorPhase : Binary32
  /-- R30 -/
  carrierFreqHz : Binary32
  /-- R31 -/
  modFreqHz : Binary32
  /-- R32: samples, with a fractional part. -/
  modRangeSamples : Binary32
  /-- R33: samples, a non-negative integer. -/
  modOffsetSamples : Nat
  /-- R34 -/
  syncEnabled : Bool
  /-- R35 -/
  includeCarrier : Bool
  /-- The response the core presents and the host has not taken: `rsp_valid` with `rsp_data` (R83). -/
  rsp : Option ResponseWord
  /-- MODEL'S OWN: what the host does next at the port, in order (R180, R181). -/
  host : List HostMove
  /-- MODEL'S OWN: the responses delivered to the host, in order: the result of a run (R181). -/
  delivered : List ResponseWord
  /-- MODEL'S OWN: how often unspecified NaNs have been drawn. Log entry 4. -/
  draws : Nat
  deriving DecidableEq, Repr

/-- Right after hardware reset (R41, R170, R171): both flags 0, no response presented. The spec leaves every other
register and the buffer unspecified. The zeros here are a DESIGN CHOICE (log entry 1) that no command can read. -/
def State.reset : State where
  initialized := false
  errSticky := false
  sampleRate := 0#32
  bufLen := 0
  buffer := ⟨[]⟩
  writeIndex := 0
  readIndex := 0
  carrierPhase := 0#32
  modulatorPhase := 0#32
  carrierFreqHz := 0#32
  modFreqHz := 0#32
  modRangeSamples := 0#32
  modOffsetSamples := 0
  syncEnabled := false
  includeCarrier := false
  rsp := none
  host := []
  delivered := []
  draws := 0

/-- How a command ends. -/
abbrev Result := Host.Outcome State Fault Refusal

end Sys2Proof.Machine
end

