-- ==== Sys2Proof/Machine/Flags.lean ====
section
/-! DEFINITION. The two status flags (10_state.md R21, R22, R38), the only ones the core has: no command sets a flag as a
side effect of arithmetic (60_exceptions.md R159). -/

namespace Sys2Proof.Machine

/-- `initialized <- 1` (R21, 40_init.md R90 I15). -/
def State.markInitialized (s : State) : State := { s with initialized := true }

/-- `errSticky <- 1` (R22, 60_exceptions.md R155). -/
def State.markRejected (s : State) : State := { s with errSticky := true }

end Sys2Proof.Machine
end

