-- ==== Sys2Proof/Config.lean ====
section
/-! DEFINITION. The parameters of the step relation (00_scope.md R5, 10_state.md R45) and the values the spec leaves
free. The free sine generator, whose properties speak of the number format, stands in Machine/Sine.lean. -/

namespace Sys2Proof.Config

/-- What rule R6 leaves open of a NaN result (93_implementation_defined.md U6): its sign, and its fraction field
less one. The pairs stand for exactly the NaN bit patterns, every non-zero fraction among them. -/
abbrev NanBits := Bool × Fin 8388607

/-- Where in a command an arithmetic operation stands that may produce a NaN. The two increments share their
two places, because R101 says that equal frequency registers give the same bit pattern. -/
inductive NanSite where
  | incrementProduct | incrementQuotient
  | carrierSum | modulatorSum | carrierWrap | modulatorWrap
  | product | mixer | rangeProduct | offsetProduct
  deriving DecidableEq, Repr

/-- A choice of NaN for each pair of operands of one operation. -/
abbrev NanDraw := Binary32 → Binary32 → NanBits

/-- The parameters a model takes as arguments (R5, R8, 10_state.md R45): the buffer capacity `BUF_MAX`, the sine generator
`SIN` with its accuracy `SIN_ERR` (rational, log entry 3), and the choice of every unspecified NaN (U6), which may differ
from command to command (the number of draws so far is its first argument), from place to place and from operands to
operands. The number format and `TWO_PI` are fixed, and no rule depends on a latency (R178). -/
structure Params where
  bufMax : Nat
  sin : Binary32 → Binary32
  sinErr : ℚ
  nan : Nat → NanSite → NanDraw

/-- `IDX_W` (R5): the smallest w with 2^w >= `BUF_MAX`. -/
def Params.idxW (p : Params) : Nat := Nat.clog 2 p.bufMax

/-- `BUF_MAX` of the core, at the spec's default (R5, decision D17). Log entry 2. -/
def bufMaxDefault : Nat := 262144

/-- FREE VALUE (R6, U6): the sign and payload of every NaN an operation produces. Log entry 4. -/
opaque nanDraw : Nat → NanSite → NanDraw

end Sys2Proof.Config
end

