-- ==== Sys2Proof/Machine/Float.lean ====
section
/-! DEFINITION. Binary32 arithmetic: the number format, the one rounding, and the primitives of 00_scope.md R6. -/

namespace Sys2Proof.Machine

open Sys2Proof.Config (NanBits NanDraw)

/-- Bit 31 (R6). -/
def signBit (x : Binary32) : Bool := x.msb

/-- Bits 30:23 (R6). -/
def expField (x : Binary32) : Nat := (x.extractLsb' 23 8).toNat

/-- Bits 22:0 (R6). -/
def fracField (x : Binary32) : Nat := (x.extractLsb' 0 23).toNat

/-- Bits 30:0: for finite values and infinities they rise with the magnitude. -/
def magField (x : Binary32) : Nat := (x.extractLsb' 0 31).toNat

def isNaN (x : Binary32) : Bool := expField x == 255 && fracField x != 0

def isInf (x : Binary32) : Bool := expField x == 255 && fracField x == 0

def isFinite (x : Binary32) : Bool := expField x != 255

/-- The integer significand of a finite value: 24 bits if it is normal, fewer if it is subnormal or zero. -/
def significand (x : Binary32) : Nat :=
  if expField x = 0 then fracField x else fracField x + 2 ^ 23

/-- The weight of the significand's last bit is 2 to this power (bias 127). -/
def ulpExp (x : Binary32) : Int :=
  if expField x = 0 then -149 else (expField x : Int) - 150

/-- The significand with the value's sign. -/
def signedSig (x : Binary32) : Int :=
  if signBit x then -(significand x : Int) else significand x

/-- The real value of a finite binary32: what the exact results of R6 are stated over. -/
def toRat (x : Binary32) : ℚ := (signedSig x : ℚ) * 2 ^ ulpExp x

/-- The pattern with this sign and these 31 magnitude bits. -/
def pack (sign : Bool) (mag : Nat) : Binary32 :=
  BitVec.ofNat 32 (mag + if sign then 2 ^ 31 else 0)

def infinityMag : Nat := 0x7F800000

/-- A zero of this sign. -/
def zeroOf (sign : Bool) : Binary32 := pack sign 0

/-- An infinity of this sign. -/
def infinityOf (sign : Bool) : Binary32 := pack sign infinityMag

/-- The NaN pattern with this sign and fraction (U6). -/
def nanOf (b : NanBits) : Binary32 := pack b.1 (infinityMag + (b.2.val + 1))

/-- The sign bit inverted. -/
def negate (x : Binary32) : Binary32 := pack (!signBit x) (magField x)

/-- The integer nearest to n / d, a tie going to the even one. -/
def divNearestEven (n d : Nat) : Nat :=
  let q := n / d
  let r := n % d
  if 2 * r < d then q else if d < 2 * r then q + 1 else q + q % 2

/-- The integer l with 2^l <= n / d < 2^(l + 1), for positive n and d. -/
def floorLog2 (n d : Nat) : Int :=
  let l : Int := (Nat.log2 n : Int) - (Nat.log2 d : Int)
  if d * 2 ^ l.toNat ≤ n * 2 ^ (-l).toNat then l else l - 1

/-- The exponent of the last bit kept when n / d * 2^e is rounded to 24 significant bits, not below that of the
subnormals. -/
def roundExp (n d : Nat) (e : Int) : Int := max (floorLog2 n d + e - 23) (-149)

/-- The magnitude bits of n / d * 2^e rounded to nearest, ties to even, without a bound on the exponent. A sum
of the exponent's share and the rounded significand gives normal numbers, subnormals and the carry into the next
exponent alike. -/
def roundMag (n d : Nat) (e : Int) : Nat :=
  if n = 0 then 0
  else
    let q := roundExp n d e
    (q + 149).toNat * 2 ^ 23
      + divNearestEven (n * 2 ^ (e - q).toNat) (d * 2 ^ (q - e).toNat)

/-- The real number ± n / d * 2^e rounded once to binary32, nearest with ties to even. Overflow gives an infinity of
its sign and subnormal results are kept (R6). -/
def roundRatio (sign : Bool) (n d : Nat) (e : Int) : Binary32 :=
  pack sign (min (roundMag n d e) infinityMag)

/-- The sum of two finite values as an integer multiple of 2 to the smaller of their last bits' exponents. -/
def alignedSum (a b : Binary32) : Int :=
  let e := min (ulpExp a) (ulpExp b)
  signedSig a * 2 ^ (ulpExp a - e).toNat + signedSig b * 2 ^ (ulpExp b - e).toNat

/-- a + b of finite values: the exact sum rounded once. An exact zero sum is +0, except that both operands -0
give -0 (G8). -/
def addFinite (a b : Binary32) : Binary32 :=
  let t := alignedSum a b
  if t = 0 then zeroOf (signBit a && signBit b)
  else roundRatio (decide (t < 0)) t.natAbs 1 (min (ulpExp a) (ulpExp b))

/-- `fadd` (R6). The draw supplies the bits of a NaN result. -/
def fadd (draw : NanDraw) (a b : Binary32) : Binary32 :=
  if isNaN a || isNaN b then nanOf (draw a b)
  else if isInf a then (if isInf b && signBit a != signBit b then nanOf (draw a b) else a)
  else if isInf b then b
  else addFinite a b

/-- `fsub` (R6): a + (-b). -/
def fsub (draw : NanDraw) (a b : Binary32) : Binary32 := fadd draw a (negate b)

/-- `fmul` (R6). -/
def fmul (draw : NanDraw) (a b : Binary32) : Binary32 :=
  let sign := signBit a != signBit b
  if isNaN a || isNaN b then nanOf (draw a b)
  else if isInf a then (if significand b = 0 then nanOf (draw a b) else infinityOf sign)
  else if isInf b then (if significand a = 0 then nanOf (draw a b) else infinityOf sign)
  else roundRatio sign (significand a * significand b) 1 (ulpExp a + ulpExp b)

/-- `fdiv` (R6). -/
def fdiv (draw : NanDraw) (a b : Binary32) : Binary32 :=
  let sign := signBit a != signBit b
  if isNaN a || isNaN b then nanOf (draw a b)
  else if isInf a then (if isInf b then nanOf (draw a b) else infinityOf sign)
  else if isInf b then zeroOf sign
  else if significand b = 0 then
    (if significand a = 0 then nanOf (draw a b) else infinityOf sign)
  else roundRatio sign (significand a) (significand b) (ulpExp a - ulpExp b)

/-- An integer that orders the non-NaN patterns as their real values are ordered, both zeros at 0. -/
def orderKey (x : Binary32) : Int :=
  if signBit x then -(magField x : Int) else magField x

/-- `fge` (R6): a >= b, false if either is a NaN. -/
def fge (a b : Binary32) : Bool := !isNaN a && !isNaN b && decide (orderKey b ≤ orderKey a)

/-- `flt` (R6). -/
def flt (a b : Binary32) : Bool := !isNaN a && !isNaN b && decide (orderKey a < orderKey b)

/-- `fgt` (R6). -/
def fgt (a b : Binary32) : Bool := !isNaN a && !isNaN b && decide (orderKey b < orderKey a)

end Sys2Proof.Machine
end

