-- ==== Sys2Proof/Machine/Sine.lean ====
section
/-! DEFINITION. The sine generator (00_scope.md R8): what the spec lets a model assume of it, and the core's own, a free value
of exactly that. -/

namespace Sys2Proof.Config

open Sys2Proof.Machine

/-- A sine generator with its accuracy: a total function of the operand's bits with the properties S1 to S3 of R8, and
nothing else. On a NaN or an infinity it may answer any pattern (93_implementation_defined.md U5). -/
structure SineGenerator where
  /-- `SIN` -/
  sin : Binary32 → Binary32
  /-- `SIN_ERR` (R8). Rational, log entry 3. -/
  err : ℚ
  /-- S1 -/
  range : ∀ x, isFinite x = true → isFinite (sin x) = true ∧ -1 ≤ toRat (sin x) ∧ toRat (sin x) ≤ 1
  /-- S2 -/
  zero : sin 0x00000000#32 = 0x00000000#32
  err_nonneg : 0 ≤ err
  err_lt_one : err < 1
  /-- S3 -/
  accurate : ∀ x, isFinite x = true →
    |((toRat (sin x) : ℚ) : ℝ) - Real.sin ((toRat x : ℚ) : ℝ)| ≤ (err : ℝ)

/-- FREE VALUE (R8, U5, U14): the core's sine generator, any one there is. The instance argument only shows Lean that
there is one. Log entry 3. -/
opaque sineGenerator [Inhabited SineGenerator] : SineGenerator

/-! ### That there is one

The rest of this file is evidence, and no part of the machine: a generator that gives a half with the sine's sign, taken
from a power of 1 + i x / 2^700, which is accurate to 3 / 4. -/

/-- A complex number, as its two parts, squared n times. -/
def squarings : Nat → ℚ × ℚ → ℚ × ℚ
  | 0, z => z
  | n + 1, z => squarings n (z.1 * z.1 - z.2 * z.2, 2 * z.1 * z.2)

/-- Squaring both sides n times makes an error of e at a unit complex number one of at most 3^n e. -/
theorem squarings_error (n : Nat) : ∀ (z : ℚ × ℚ) (w : ℂ) (e : ℝ),
    ‖((z.1 : ℂ) + z.2 * Complex.I) - Complex.exp w‖ ≤ e → 3 ^ n * e ≤ 1 → w.re = 0 →
    ‖(((squarings n z).1 : ℂ) + (squarings n z).2 * Complex.I) - Complex.exp (2 ^ n * w)‖ ≤ 3 ^ n * e := by
  induction n with
  | zero => intro z w e h _ _; simpa [squarings] using h
  | succ n ih =>
    intro z w e h he hw
    have e0 : 0 ≤ e := (norm_nonneg _).trans h
    have hp : (1 : ℝ) ≤ 3 ^ n := one_le_pow₀ (by norm_num)
    have e1 : e ≤ 1 := by rw [pow_succ] at he; nlinarith
    have hexp : ‖Complex.exp w‖ = 1 := by rw [Complex.norm_exp, hw, Real.exp_zero]
    have hsum : ‖((z.1 : ℂ) + z.2 * Complex.I) + Complex.exp w‖ ≤ 3 := by
      have : ((z.1 : ℂ) + z.2 * Complex.I) + Complex.exp w
          = (((z.1 : ℂ) + z.2 * Complex.I) - Complex.exp w) + 2 * Complex.exp w := by ring
      rw [this]
      refine (norm_add_le _ _).trans ?_
      rw [norm_mul, hexp]; norm_num; linarith
    have hsq : ‖((((z.1 * z.1 - z.2 * z.2 : ℚ) : ℂ)) + ((2 * z.1 * z.2 : ℚ) : ℂ) * Complex.I) - Complex.exp (2 * w)‖
        ≤ 3 * e := by
      have : ((((z.1 * z.1 - z.2 * z.2 : ℚ) : ℂ)) + ((2 * z.1 * z.2 : ℚ) : ℂ) * Complex.I) - Complex.exp (2 * w)
          = (((z.1 : ℂ) + z.2 * Complex.I) + Complex.exp w) * (((z.1 : ℂ) + z.2 * Complex.I) - Complex.exp w) := by
        rw [two_mul w, Complex.exp_add]
        push_cast
        linear_combination ((z.2 : ℂ) ^ 2) * (-Complex.I_sq)
      rw [this, norm_mul]
      exact mul_le_mul hsum h (norm_nonneg _) (by norm_num)
    have := ih (z.1 * z.1 - z.2 * z.2, 2 * z.1 * z.2) (2 * w) (3 * e) hsq
      (by rw [pow_succ] at he; linarith) (by simp [hw])
    have e2 : (2 : ℂ) ^ (n + 1) * w = 2 ^ n * (2 * w) := by ring
    have e3 : (3 : ℝ) ^ (n + 1) * e = 3 ^ n * (3 * e) := by ring
    rw [e2, e3]
    exact this

/-- The imaginary part after 700 squarings is near the sine of every number up to 2^129. -/
theorem squarings_sin (q : ℚ) (h : |q| ≤ 2 ^ 129) :
    |(((squarings 700 (1, q / 2 ^ 700)).2 : ℚ) : ℝ) - Real.sin (q : ℝ)| ≤ 1 / 4 := by
  have hq : |((q / 2 ^ 700 : ℚ) : ℝ)| ≤ 1 / 2 ^ 571 := by
    have : |(q : ℝ)| ≤ 2 ^ 129 := by exact_mod_cast h
    push_cast
    rw [abs_div, abs_of_pos (by positivity : (0 : ℝ) < 2 ^ 700), div_le_div_iff₀ (by positivity) (by positivity)]
    calc |(q : ℝ)| * 2 ^ 571 ≤ 2 ^ 129 * 2 ^ 571 := by gcongr
      _ = 1 * 2 ^ 700 := by rw [one_mul, ← pow_add]
  generalize hy : ((q / 2 ^ 700 : ℚ) : ℝ) = y at hq
  have hn : ‖(y : ℂ) * Complex.I‖ = |y| := by simp
  have hone : |y| ≤ 1 := hq.trans (by rw [div_le_one (by positivity)]; exact one_le_pow₀ (by norm_num))
  have hstart : ‖(((1 : ℚ) : ℂ) + ((q / 2 ^ 700 : ℚ) : ℂ) * Complex.I) - Complex.exp ((y : ℂ) * Complex.I)‖
      ≤ (1 / 2 ^ 571) ^ 2 := by
    have hc : ((q / 2 ^ 700 : ℚ) : ℂ) = (y : ℂ) := by rw [← hy]; push_cast; rfl
    have := Complex.norm_exp_sub_one_sub_id_le (x := (y : ℂ) * Complex.I) (by rw [hn]; exact hone)
    rw [hc, norm_sub_rev, Rat.cast_one, ← sub_sub]
    refine this.trans ?_
    rw [hn]
    exact pow_le_pow_left₀ (abs_nonneg y) hq 2
  have hsmall : (3 : ℝ) ^ 700 * (1 / 2 ^ 571) ^ 2 ≤ 1 / 4 := by
    have h3 : (3 : ℝ) ^ 700 ≤ 2 ^ 1120 := by
      rw [show 700 = 5 * 140 from rfl, show 1120 = 8 * 140 from rfl, pow_mul, pow_mul]
      exact pow_le_pow_left₀ (by norm_num) (by norm_num) 140
    rw [div_pow, one_pow, ← pow_mul, mul_one_div, div_le_div_iff₀ (by positivity) (by norm_num), one_mul]
    calc (3 : ℝ) ^ 700 * 4 ≤ 2 ^ 1120 * 2 ^ 2 := by gcongr; norm_num
      _ = 2 ^ 1122 := by rw [← pow_add]
      _ ≤ 2 ^ (571 * 2) := pow_le_pow_right₀ (by norm_num) (by norm_num)
  have key := squarings_error 700 (1, q / 2 ^ 700) ((y : ℂ) * Complex.I) _ hstart (hsmall.trans (by norm_num)) (by simp)
  have hw : (2 : ℂ) ^ 700 * ((y : ℂ) * Complex.I) = ((q : ℝ) : ℂ) * Complex.I := by
    have : (2 : ℝ) ^ 700 * y = q := by
      rw [← hy]; push_cast
      exact mul_div_cancel₀ _ (by positivity)
    rw [← mul_assoc]
    congr 1
    exact_mod_cast this
  rw [hw] at key
  have him := (Complex.abs_im_le_norm _).trans (key.trans hsmall)
  rw [Complex.sub_im, Complex.exp_ofReal_mul_I_im] at him
  simpa using him

/-- A value is at most 2^129 in magnitude. -/
theorem toRat_bound (x : Binary32) : |toRat x| ≤ 2 ^ 129 := by
  have he : expField x < 256 := by rw [expField]; exact BitVec.isLt _
  have hf : fracField x < 2 ^ 23 := by rw [fracField]; exact BitVec.isLt _
  have hs : significand x ≤ 2 ^ 24 := by rw [significand]; split <;> omega
  have hu : ulpExp x ≤ 105 := by rw [ulpExp]; split <;> omega
  have ha : |(signedSig x : ℚ)| ≤ 2 ^ 24 := by
    have : |signedSig x| ≤ 2 ^ 24 := by rw [signedSig]; split <;> simp <;> exact_mod_cast hs
    exact_mod_cast this
  rw [toRat, abs_mul, abs_of_pos (by positivity : (0 : ℚ) < 2 ^ ulpExp x)]
  calc |(signedSig x : ℚ)| * 2 ^ ulpExp x ≤ 2 ^ 24 * 2 ^ (105 : Int) := by
        gcongr
        norm_num
    _ = 2 ^ 129 := by norm_num

/-- A half with the sine's sign, +0 on +0. -/
@[irreducible] def halfSine (x : Binary32) : Binary32 :=
  if x = 0x00000000#32 then 0x00000000#32
  else if 0 ≤ (squarings 700 (1, toRat x / 2 ^ 700)).2 then 0x3F000000#32 else 0xBF000000#32

theorem halfSine_cases (x : Binary32) :
    (x = 0x00000000#32 ∧ halfSine x = 0x00000000#32) ∨
      (0 ≤ (squarings 700 (1, toRat x / 2 ^ 700)).2 ∧ halfSine x = 0x3F000000#32) ∨
      ((squarings 700 (1, toRat x / 2 ^ 700)).2 < 0 ∧ halfSine x = 0xBF000000#32) := by
  unfold halfSine
  split
  · exact .inl ⟨‹_›, rfl⟩
  · split
    · exact .inr (.inl ⟨‹_›, rfl⟩)
    · exact .inr (.inr ⟨not_le.mp ‹_›, rfl⟩)

theorem toRat_sineValues : toRat 0x00000000#32 = 0 ∧ toRat 0x3F000000#32 = 1 / 2 ∧ toRat 0xBF000000#32 = -(1 / 2) := by
  have h0 : signedSig 0x00000000#32 = 0 := by decide
  have h1 : signedSig 0x3F000000#32 = 8388608 ∧ ulpExp 0x3F000000#32 = -24 := by decide
  have h2 : signedSig 0xBF000000#32 = -8388608 ∧ ulpExp 0xBF000000#32 = -24 := by decide
  refine ⟨?_, ?_, ?_⟩
  · simp [toRat, h0]
  · rw [toRat, h1.1, h1.2]; norm_num
  · rw [toRat, h2.1, h2.2]; norm_num

/-- A generator there is. -/
def halfSineGenerator : SineGenerator where
  sin := halfSine
  err := 3 / 4
  range := fun x _ => by
    obtain ⟨v0, v1, v2⟩ := toRat_sineValues
    rcases halfSine_cases x with ⟨-, h⟩ | ⟨-, h⟩ | ⟨-, h⟩ <;> rw [h]
    · rw [v0]; exact ⟨by decide, by norm_num, by norm_num⟩
    · rw [v1]; exact ⟨by decide, by norm_num, by norm_num⟩
    · rw [v2]; exact ⟨by decide, by norm_num, by norm_num⟩
  zero := by rw [halfSine, if_pos rfl]
  err_nonneg := by norm_num
  err_lt_one := by norm_num
  accurate := fun x _ => by
    obtain ⟨v0, v1, v2⟩ := toRat_sineValues
    have near := abs_le.mp (squarings_sin (toRat x) (toRat_bound x))
    have s1 := Real.sin_le_one ((toRat x : ℚ) : ℝ)
    have s2 := Real.neg_one_le_sin ((toRat x : ℚ) : ℝ)
    rcases halfSine_cases x with ⟨h0, h⟩ | ⟨h0, h⟩ | ⟨h0, h⟩ <;> rw [h]
    · rw [h0, v0]; norm_num
    · have : (0 : ℝ) ≤ ((squarings 700 (1, toRat x / 2 ^ 700)).2 : ℚ) := by exact_mod_cast h0
      rw [v1, abs_le]; constructor <;> push_cast <;> linarith
    · have : (((squarings 700 (1, toRat x / 2 ^ 700)).2 : ℚ) : ℝ) < 0 := by exact_mod_cast h0
      rw [v2, abs_le]; constructor <;> push_cast <;> linarith

end Sys2Proof.Config
end

