-- ==== Sys2Proof/Machine/Operands.lean ====
section
/-! DEFINITION. The constants and conversions commands apply to their operands (00_scope.md R7 to R12, 40_init.md R91),
and the core's own parameters. -/

namespace Sys2Proof.Machine

open Sys2Proof.Config (Params)

/-- `TWO_PI` (R7). -/
def TWO_PI : Binary32 := 0x40C90FDB#32

def plusZero : Binary32 := 0x00000000#32

/-- 1.0 -/
def one : Binary32 := 0x3F800000#32

/-- 2.0, the smallest legal rate (R91). -/
def two : Binary32 := 0x40000000#32

/-- 0.25, the share of the buffer length in the default range (R90 I5). -/
def quarter : Binary32 := 0x3E800000#32

/-- 110.0, the default frequency (R90 I11, I12). -/
def hz110 : Binary32 := 0x42DC0000#32

/-- The largest integer not above |x|. -/
def truncMag (x : Binary32) : Nat :=
  significand x * 2 ^ (ulpExp x).toNat / 2 ^ (-ulpExp x).toNat

/-- `FTOI` (R9): truncation toward zero, 0 for a NaN, saturated at the two ends (an infinity's fields denote a
magnitude of 2^128, so it saturates like every value that large). -/
def FTOI (x : Binary32) : Int :=
  if isNaN x then 0
  else if signBit x then max (-(truncMag x : Int)) (-2147483648)
  else min (truncMag x : Int) 2147483647

/-- `ITOF` (R10): exact for 0 <= n <= 2^24. -/
def ITOF (n : Nat) : Binary32 := roundRatio false n 1 0

/-- `FLOORI` (R10), for a finite value not below zero. -/
def FLOORI (x : Binary32) : Nat := truncMag x

/-- `clamp01` (R11). -/
def clamp01 (x : Binary32) : Binary32 :=
  if flt x plusZero then plusZero else if fgt x one then one else x

/-- `emod` (R12): the remainder r of a by m with 0 <= r < m. -/
def emod (a m : Int) : Int := a % m

/-- `InitOperandLegal` (R91). -/
def initOperandLegal (bufMax : Nat) (rate : Binary32) : Bool :=
  !isNaN rate && !isInf rate && fge rate two && decide (FLOORI rate ≤ bufMax)

/-- The core's sine generator (R8): the free one, with S1 to S3 and no more known of it. Log entry 3. -/
def coreSine : Config.SineGenerator := @Config.sineGenerator ⟨Config.halfSineGenerator⟩

/-- `SIN` of the core (R8). -/
def coreSin (x : Binary32) : Binary32 := coreSine.sin x

/-- The parameters of the core: `BUF_MAX` at its default, the sine generator, its accuracy and the NaN choices free
(R5). -/
def coreParams : Params where
  bufMax := Config.bufMaxDefault
  sin := coreSin
  sinErr := coreSine.err
  nan := Config.nanDraw

end Sys2Proof.Machine
end

