-- ==== Sys2Proof/Machine/Ops.lean ====
section
/-! DEFINITION. The shared operations: the delay buffer (20_memory.md), responding and raising (30_encoding.md R79,
60_exceptions.md R155), the cursors (41_process.md R112, R115) and the port (30_encoding.md R83, R84). -/

namespace Sys2Proof.Machine

/-! ### The delay buffer -/

/-- The sample at an index, +0.0 where none is listed. -/
def lookupCell : List (Nat × Binary32) → Nat → Binary32
  | [], _ => plusZero
  | (j, v) :: rest, i => if j = i then v else lookupCell rest i

/-- The list with the sample at an index replaced, in canonical form. -/
def storeCell : List (Nat × Binary32) → Nat → Binary32 → List (Nat × Binary32)
  | [], i, v => if v = plusZero then [] else [(i, v)]
  | (j, x) :: rest, i, v =>
    if i < j then (if v = plusZero then (j, x) :: rest else (i, v) :: (j, x) :: rest)
    else if i = j then (if v = plusZero then rest else (i, v) :: rest)
    else (j, x) :: storeCell rest i v

/-- Indices strictly rising from `lo` on, and no listed +0.0. -/
def cellsCanonical : Nat → List (Nat × Binary32) → Bool
  | _, [] => true
  | lo, (j, v) :: rest => decide (lo ≤ j) && decide (v ≠ plusZero) && cellsCanonical (j + 1) rest

def Memory.read (m : Memory) (i : Nat) : Binary32 := lookupCell m.cells i

def Memory.write (m : Memory) (i : Nat) (v : Binary32) : Memory := ⟨storeCell m.cells i v⟩

/-- Every entry +0.0: INIT's clear (40_init.md R90 I4). -/
def Memory.cleared : Memory := ⟨[]⟩

/-- The canonical form: equal memories are equal data. -/
def Memory.wf (m : Memory) : Bool := cellsCanonical 0 m.cells

/-- No entry at or above `n` is listed: entries L and up are no part of the state (10_state.md R25). -/
def Memory.within (m : Memory) (n : Nat) : Bool := m.cells.all (fun c => decide (c.1 < n))

/-- The index as an entry of the buffer, if it is one: 0 <= i < L (20_memory.md R51). -/
def validIndex (s : State) (i : Int) : Except Fault Nat :=
  if 0 ≤ i ∧ i < s.bufLen then .ok i.toNat else .error (.bufferIndexOutOfRange i)

/-- `MemRead(i, 1)` (20_memory.md R52). -/
def memRead (s : State) (i : Int) : Except Fault Binary32 :=
  match validIndex s i with
  | .ok k => .ok (s.buffer.read k)
  | .error f => .error f

/-- `MemWrite(i, 1, v)` (20_memory.md R52). -/
def memWrite (s : State) (i : Int) (v : Binary32) : Except Fault State :=
  match validIndex s i with
  | .ok k => .ok { s with buffer := s.buffer.write k v }
  | .error f => .error f

/-! ### Cursors -/

/-- A cursor one further, back to 0 where it reaches L (R112, R115). -/
def advanceCursor (i len : Nat) : Nat := if i + 1 = len then 0 else i + 1

/-! ### Responses and exceptions -/

/-- The code of an exception (60_exceptions.md R150). -/
def exceptionCode : Exception → BitVec 4
  | .illegalCmd => 0x1#4
  | .notInit => 0x2#4
  | .badRate => 0x3#4

/-- `st` (30_encoding.md R80). -/
def statusCode : Status → BitVec 4
  | .ok => 0x0#4
  | .error e => exceptionCode e

/-- `{st, data}` (30_encoding.md R79). -/
def responseWord (st : Status) (data : BitVec 32) : ResponseWord := statusCode st ++ data

/-- `rsp[35:32]` (30_encoding.md R79). -/
def responseStatus (r : ResponseWord) : BitVec 4 := r.extractLsb' 32 4

/-- `rsp[31:0]` (30_encoding.md R79). -/
def responseData (r : ResponseWord) : BitVec 32 := r.extractLsb' 0 32

/-- `respond(status, data)` (00_scope.md R13): the response is presented on the response port. -/
def State.respond (s : State) (st : Status) (data : BitVec 32) : State :=
  { s with rsp := some (responseWord st data) }

/-- An accepted command's end. -/
def accept (s : State) (data : BitVec 32) : Result := .next (s.respond .ok data)

/-- Taking an exception, `raise E` (60_exceptions.md R155): nothing changes but `errSticky`, the response carries the
code and zero data, and the command ends. No pc, status or mode is saved, there being none. -/
def raise (e : Exception) (s : State) : Result :=
  .next (s.markRejected.respond (.error e) 0#32)

/-- The return from an exception (60_exceptions.md R156): there is no return command and nothing to restore. The next
command executes in the state the rejection left. -/
def returnFromException (s : State) : State := s

/-- The test every command but INIT begins with (60_exceptions.md R152). -/
def whenInitialized (s : State) (k : State → Result) : Result :=
  if s.initialized then k s else raise .notInit s

/-! ### The port -/

/-- What the output pins show (30_encoding.md R83). `rspData` has no value while `rsp_valid` = 0 (R171, U13). -/
structure Outputs where
  cmdReady : Bool
  rspValid : Bool
  rspData : Option ResponseWord
  errStickyPin : Bool
  deriving DecidableEq, Repr

/-- The output pins between two commands: the core takes a word exactly when no response waits (30_encoding.md R84),
and `err_sticky` shows the register (60_exceptions.md R162). -/
def outputs (s : State) : Outputs where
  cmdReady := s.rsp.isNone
  rspValid := s.rsp.isSome
  rspData := s.rsp
  errStickyPin := s.errSticky

/-- The response presented is delivered, if there is one (30_encoding.md R83). -/
def State.deliver (s : State) : State :=
  match s.rsp with
  | some r => { s with rsp := none, delivered := s.delivered ++ [r] }
  | none => s

/-- Hardware reset (R170, R171): both flags 0, the response of a command in progress abandoned. The registers the spec
leaves unspecified are as after power-on (log entry 1). What the host was given before and what it does next are the
host's own, and no draw is used twice. -/
def State.hardwareReset (s : State) : State :=
  { State.reset with host := s.host, delivered := s.delivered, draws := s.draws }

/-- The host holds a command word that the core cannot take yet, and makes its next move meanwhile (30_encoding.md R83): it
takes the response that waits, or resets. It still holds the word afterwards. A second word cannot be presented, so with
none of these moves next nothing changes. -/
def State.holdCommand (s : State) (w : CommandWord) (rest : List HostMove) : State :=
  match rest with
  | .takeResponse :: later => { s with host := .command w :: later }.deliver
  | .reset :: later => { s with host := .command w :: later }.hardwareReset
  | .command _ :: _ => s
  | [] => s

/-- One move of the host. A command word is taken only while no response waits, and is held until then (30_encoding.md
R83, R84). With nothing to do the core holds its state (60_exceptions.md R165). -/
def portStep (run : CommandWord → State → Result) (s : State) : Result :=
  match s.host with
  | [] => .next s
  | .reset :: rest => .next { s with host := rest }.hardwareReset
  | .takeResponse :: rest => .next { s with host := rest }.deliver
  | .command w :: rest =>
    match s.rsp with
    | some _ => .next (s.holdCommand w rest)
    | none => run w { s with host := rest }

/-- The host presents this word next, and the port is ready to take it. -/
def State.presentWord (s : State) (w : CommandWord) : State :=
  { s with host := .command w :: s.host, rsp := none }

end Sys2Proof.Machine
end

