-- ==== Sys2Proof/Machine/Init.lean ====
section
/-! DEFINITION. INIT (40_init.md R90 to R92). -/

namespace Sys2Proof.Machine

open Sys2Proof.Config (Params)

/-- `fmul(0.25, ITOF(L))` (R90 I5). It is never a NaN, so its draw is not counted. -/
def defaultRange (p : Params) (draws len : Nat) : Binary32 :=
  fmul (p.nan draws .rangeProduct) quarter (ITOF len)

/-- The registers an accepted INIT leaves (R90 I2 to I15), all but `errSticky`. -/
def State.initialise (p : Params) (rate : Binary32) (s : State) : State :=
  { s with
    sampleRate := rate
    bufLen := FLOORI rate
    buffer := Memory.cleared
    modRangeSamples := defaultRange p s.draws (FLOORI rate)
    modOffsetSamples := 1
    writeIndex := 0
    readIndex := 1
    carrierPhase := plusZero
    modulatorPhase := plusZero
    carrierFreqHz := hz110
    modFreqHz := hz110
    syncEnabled := true
    includeCarrier := false }.markInitialized

/-- INIT under the parameters `p` (R90). -/
def initWith (p : Params) (rate : Binary32) (s : State) : Result :=
  if initOperandLegal p.bufMax rate then accept (s.initialise p rate) 0#32
  else raise .badRate s

/-- INIT of the core (R90). -/
def execInit (rate : Binary32) (s : State) : Result := initWith coreParams rate s

end Sys2Proof.Machine
end

