-- ==== Sys2Proof/Machine/Process.lean ====
section
/-! DEFINITION. PROCESS, one output sample (41_process.md R100 to R122). -/

namespace Sys2Proof.Machine

open Sys2Proof.Config (Params)

/-- `fdiv(fmul(TWO_PI, f), sampleRate)`, a phase increment (R101, lines P1a, P2a). -/
def increment (p : Params) (draws : Nat) (f rate : Binary32) : Binary32 :=
  fdiv (p.nan draws .incrementQuotient)
    (fmul (p.nan draws .incrementProduct) TWO_PI f) rate

/-- `incC` (line P1a). -/
def carrierIncrement (p : Params) (s : State) : Binary32 :=
  increment p s.draws s.carrierFreqHz s.sampleRate

/-- `incM` (line P2a). -/
def modulatorIncrement (p : Params) (s : State) : Binary32 :=
  increment p s.draws s.modFreqHz s.sampleRate

/-- `th` before its wrap (R102, line P1b). -/
def carrierSum (p : Params) (s : State) : Binary32 :=
  fadd (p.nan s.draws .carrierSum) s.carrierPhase (carrierIncrement p s)

/-- `be` before reset and wrap (R103, line P2b). -/
def modulatorSum (p : Params) (s : State) : Binary32 :=
  fadd (p.nan s.draws .modulatorSum) s.modulatorPhase (modulatorIncrement p s)

/-- The carrier wraps in this PROCESS (R104, line P3). -/
def carrierWraps (p : Params) (s : State) : Bool := fge (carrierSum p s) TWO_PI

/-- `th` after line P3a (R104): one subtraction and no more. -/
def nextCarrierPhase (p : Params) (s : State) : Binary32 :=
  if carrierWraps p s then fsub (p.nan s.draws .carrierWrap) (carrierSum p s) TWO_PI
  else carrierSum p s

/-- `be` after line P3b (R104): replaced by one increment where the carrier wraps with sync on. -/
def syncedModulator (p : Params) (s : State) : Binary32 :=
  if carrierWraps p s && s.syncEnabled then modulatorIncrement p s else modulatorSum p s

/-- `be` after line P4a (R105): with sync off, and only then, its own wrap, whether or not the carrier wrapped. -/
def nextModulatorPhase (p : Params) (s : State) : Binary32 :=
  if !s.syncEnabled && fge (syncedModulator p s) TWO_PI then
    fsub (p.nan s.draws .modulatorWrap) (syncedModulator p s) TWO_PI
  else syncedModulator p s

/-- `cs` (R106, line P5). -/
def carrierSample (p : Params) (s : State) : Binary32 := p.sin (nextCarrierPhase p s)

/-- `coeff` (R107, line P6). -/
def coefficient (p : Params) (s : State) : Binary32 := p.sin (nextModulatorPhase p s)

/-- `prod` (R108, line P7a). -/
def modProduct (p : Params) (s : State) : Binary32 :=
  fmul (p.nan s.draws .product) (coefficient p s) s.modRangeSamples

/-- `offset` (R109, line P7b). -/
def readOffset (p : Params) (s : State) : Int := FTOI (modProduct p s) + s.modOffsetSamples

/-- `emod(readIndex - offset + L, L)` (R110, line P8). -/
def pointerAt (readIndex : Nat) (offset : Int) (len : Nat) : Int :=
  emod ((readIndex : Int) - offset + len) len

/-- `rp` (R110, line P8). -/
def readPointer (p : Params) (s : State) : Int := pointerAt s.readIndex (readOffset p s) s.bufLen

/-- The mixer (R113, line P11): `cs` added to the sample read if the carrier is included. -/
def mix (p : Params) (s : State) (sample : Binary32) : Binary32 :=
  if s.includeCarrier then fadd (p.nan s.draws .mixer) sample (carrierSample p s) else sample

/-- The registers PROCESS writes besides the buffer (R42; lines P4b, P10, P13). -/
def State.advance (p : Params) (s t : State) : State :=
  { t with
    carrierPhase := nextCarrierPhase p s
    modulatorPhase := nextModulatorPhase p s
    readIndex := advanceCursor s.readIndex s.bufLen
    writeIndex := advanceCursor s.writeIndex s.bufLen
    draws := s.draws + 1 }

/-- Lines P1a to P14: the read of line P9 comes before the write of line P12 (R111, R114). -/
def produceSample (p : Params) (s : State) : Result :=
  match memRead s (readPointer p s) with
  | .error f => .fault f
  | .ok sample =>
    match memWrite s s.writeIndex (carrierSample p s) with
    | .error f => .fault f
    | .ok t => accept (State.advance p s t) (mix p s sample)

/-- PROCESS under the parameters `p` (R100). -/
def processWith (p : Params) (s : State) : Result := whenInitialized s (produceSample p)

/-- PROCESS of the core (R100). -/
def execProcess (s : State) : Result := processWith coreParams s

end Sys2Proof.Machine
end

