-- ==== Sys2Proof/Machine/Setters.lean ====
section
/-! DEFINITION. The six configuration commands (42_config.md R130 to R136). -/

namespace Sys2Proof.Machine

open Sys2Proof.Config (Params)

/-- What the six setters share (R136): the initialisation test, one register written, the response `OK` with no data. -/
def setter (s : State) (write : State → State) : Result :=
  whenInitialized s fun s => accept (write s) 0#32

/-- `fmul(clamp01(x), ITOF(bufLen))`, the samples a fraction stands for (R132, R133). -/
def fractionOfBuffer (draw : Config.NanDraw) (x : Binary32) (len : Nat) : Binary32 :=
  fmul draw (clamp01 x) (ITOF len)

/-- SETCF (R130). -/
def execSetcf (hz : Binary32) (s : State) : Result :=
  setter s fun s => { s with carrierFreqHz := hz }

/-- SETMF (R131). -/
def execSetmf (hz : Binary32) (s : State) : Result :=
  setter s fun s => { s with modFreqHz := hz }

/-- SETMR under the parameters `p` (R132). A NaN fraction stores a NaN, one draw. -/
def setmrWith (p : Params) (x : Binary32) (s : State) : Result :=
  setter s fun s =>
    { s with
      modRangeSamples := fractionOfBuffer (p.nan s.draws .rangeProduct) x s.bufLen
      draws := s.draws + 1 }

/-- SETMR of the core (R132). -/
def execSetmr (x : Binary32) (s : State) : Result := setmrWith coreParams x s

/-- SETMO under the parameters `p` (R133). The truncated product is never negative, because the clamped fraction is not.
A NaN product is truncated to 0 whatever its bits, so its draw is not counted. -/
def setmoWith (p : Params) (x : Binary32) (s : State) : Result :=
  setter s fun s =>
    { s with
      modOffsetSamples :=
        (FTOI (fractionOfBuffer (p.nan s.draws .offsetProduct) x s.bufLen)).toNat }

/-- SETMO of the core (R133). -/
def execSetmo (x : Binary32) (s : State) : Result := setmoWith coreParams x s

/-- SETSYNC (R134). -/
def execSetsync (enabled : Bool) (s : State) : Result :=
  setter s fun s => { s with syncEnabled := enabled }

/-- SETINCL (R135). -/
def execSetincl (enabled : Bool) (s : State) : Result :=
  setter s fun s => { s with includeCarrier := enabled }

end Sys2Proof.Machine
end

