-- ==== Sys2Proof/Machine/Dispatch.lean ====
section
/-! DEFINITION. The meaning of each command, one arm a row of the opcode table (30_encoding.md R74). -/

namespace Sys2Proof.Machine

def exec (i : Instr) (s : State) : Host.Outcome State Fault Refusal :=
  match i with
  | .init rate => Sys2Proof.Machine.execInit rate s
  | .process => Sys2Proof.Machine.execProcess s
  | .setcf hz => Sys2Proof.Machine.execSetcf hz s
  | .setmf hz => Sys2Proof.Machine.execSetmf hz s
  | .setmr fraction => Sys2Proof.Machine.execSetmr fraction s
  | .setmo fraction => Sys2Proof.Machine.execSetmo fraction s
  | .setsync enabled => Sys2Proof.Machine.execSetsync enabled s
  | .setincl enabled => Sys2Proof.Machine.execSetincl enabled s

end Sys2Proof.Machine
end

