-- ==== Sys2Proof/Machine/Run.lean ====
section
/-! DEFINITION. A command word run to its response, for the core and under any parameters (00_scope.md R5, R13). -/

namespace Sys2Proof.Machine

open Sys2Proof.Config (Params)

/-- A word accepted onto the port (60_exceptions.md R154): the decode test comes first, and a word that is no command is
rejected in every state (R151). -/
def runWord (w : CommandWord) (s : State) : Result :=
  match decode w with
  | .ok i => exec i s
  | .error _ => raise .illegalCmd s

/-- The meanings under any parameters: what claims quantify over (R5). -/
def execWith (p : Params) (i : Instr) (s : State) : Result :=
  match i with
  | .init rate => initWith p rate s
  | .process => processWith p s
  | .setcf hz => execSetcf hz s
  | .setmf hz => execSetmf hz s
  | .setmr x => setmrWith p x s
  | .setmo x => setmoWith p x s
  | .setsync b => execSetsync b s
  | .setincl b => execSetincl b s

/-- A word accepted onto the port, under any parameters. -/
def runWordWith (p : Params) (w : CommandWord) (s : State) : Result :=
  match decode w with
  | .ok i => execWith p i s
  | .error _ => raise .illegalCmd s

/-- One move of the host, under any parameters. -/
def stepWith (p : Params) (s : State) : Result := portStep (runWordWith p) s

/-- `PROCESS * n` (30_encoding.md R82) under any parameters, each response taken: the states after n commands. -/
def processTimes (p : Params) : Nat → State → Result
  | 0, s => .next s
  | n + 1, s =>
    match processWith p s with
    | .next t => processTimes p n t.deliver
    | .fault f => .fault f
    | .refused r => .refused r

end Sys2Proof.Machine
end

