-- ==== Sys2Proof/Machine/Step.lean ====
section
/-! DEFINITION. One step: one move of the host at the port, a command word run to its response among them. -/

namespace Sys2Proof.Machine

/-- One step of the core (30_encoding.md R84, 70_reset_and_hazards.md R180). -/
def step (s : State) : Host.Outcome State Fault Refusal := portStep runWord s

/-- The instruction with these table bits presented as the host's next command word, the port ready to take it, so that
the next step runs it. Programs come from the host (10_state.md R37), log entry 5. -/
def State.withFetchWord (s : State) (nbits w : Nat) : State := s.presentWord (tableWord nbits w)

end Sys2Proof.Machine
end

