-- ==== Sys2Proof/Machine/Listing.lean ====
section
/-! DEFINITION. The textual form of commands and the one pseudo-command (30_encoding.md R81, R82). -/

namespace Sys2Proof.Machine

/-- A float literal `<f>` (R81). -/
inductive FloatLiteral where
  /-- ± digits * 10^exp10, the decimal form. -/
  | decimal (negative : Bool) (digits : Nat) (exp10 : Int)
  /-- `0x` and eight hexadecimal digits: the pattern itself. -/
  | pattern (bits : Binary32)
  deriving DecidableEq, Repr

/-- `F` (R81): the nearest binary32 value, ties to even, or the pattern as written. DESIGN CHOICE (log entry 11): a decimal
literal too large to round to a finite value (`1e39`) is an infinity of its sign, and one that rounds to zero (`-0`, `-1e-99`)
is a zero of its sign; R81 states neither and names the `0x` form as the way to write an infinity and -0. -/
def floatOf : FloatLiteral → Binary32
  | .decimal neg digits e => roundRatio neg (digits * 10 ^ e.toNat) (10 ^ (-e).toNat) 0
  | .pattern bits => bits

/-- One line of a listing (R81, R82). -/
inductive ListingLine where
  /-- A line with no command: DESIGN CHOICE, log entry 11. -/
  | blank
  | command (i : Instr)
  /-- `.word`: that 40-bit word, legal or not. -/
  | word (w : CommandWord)
  /-- `PROCESS * <n>` -/
  | processRepeated (n : Nat)
  deriving DecidableEq, Repr

/-- The words a line stands for. -/
def ListingLine.words : ListingLine → List CommandWord
  | .blank => []
  | .command i => [encode i]
  | .word w => [w]
  | .processRepeated n => List.replicate n (encode .process)

/-- The value of a hexadecimal digit. -/
def hexDigit (c : Char) : Option Nat :=
  if '0' ≤ c ∧ c ≤ '9' then some (c.toNat - 48)
  else if 'A' ≤ c ∧ c ≤ 'F' then some (c.toNat - 55)
  else if 'a' ≤ c ∧ c ≤ 'f' then some (c.toNat - 87)
  else none

/-- The digits at the front: their value after `acc`, how many there are, and what follows. -/
def takeDigits : Nat → Nat → List Char → Nat × Nat × List Char
  | acc, n, [] => (acc, n, [])
  | acc, n, c :: cs =>
    if '0' ≤ c ∧ c ≤ '9' then takeDigits (acc * 10 + (c.toNat - 48)) (n + 1) cs else (acc, n, c :: cs)

/-- All characters as hexadecimal digits. -/
def hexValue : Nat → List Char → Option Nat
  | acc, [] => some acc
  | acc, c :: cs => match hexDigit c with
    | some d => hexValue (acc * 16 + d) cs
    | none => none

/-- A number written in decimal digits only. -/
def decimalNat (cs : List Char) : Option Nat :=
  match takeDigits 0 0 cs with
  | (_, 0, _) => none
  | (v, _, []) => some v
  | _ => none

/-- An optional sign: whether it is a minus, and what follows. -/
def takeSign : List Char → Bool × List Char
  | '-' :: cs => (true, cs)
  | '+' :: cs => (false, cs)
  | cs => (false, cs)

/-- The optional `e` and signed exponent at the end of a decimal literal. -/
def exponentPart : List Char → Option Int
  | [] => some 0
  | 'e' :: cs =>
    let (neg, rest) := takeSign cs
    match decimalNat rest with
    | some v => some (if neg then -(v : Int) else v)
    | none => none
  | _ => none

/-- Optional sign, digits, optional point and digits, optional exponent (R81). -/
def decimalLiteral (cs : List Char) : Option FloatLiteral :=
  let (neg, body) := takeSign cs
  match takeDigits 0 0 body with
  | (_, 0, _) => none
  | (whole, _, '.' :: rest) =>
    match takeDigits whole 0 rest with
    | (_, 0, _) => none
    | (digits, places, tail) =>
      match exponentPart tail with
      | some e => some (.decimal neg digits (e - places))
      | none => none
  | (whole, _, tail) =>
    match exponentPart tail with
    | some e => some (.decimal neg whole e)
    | none => none

/-- `<f>` (R81). -/
def floatLiteral (cs : List Char) : Option FloatLiteral :=
  match cs with
  | '0' :: 'x' :: digits =>
    if digits.length = 8 then (hexValue 0 digits).map (fun v => .pattern (BitVec.ofNat 32 v)) else none
  | _ => decimalLiteral cs

/-- `<b>` (R81). -/
def booleanLiteral : List Char → Option Bool
  | ['0'] => some false
  | ['1'] => some true
  | _ => none

/-- `0x` and ten hexadecimal digits (R81). -/
def wordLiteral : List Char → Option CommandWord
  | '0' :: 'x' :: digits =>
    if digits.length = 10 then (hexValue 0 digits).map (BitVec.ofNat 40) else none
  | _ => none

/-- The line up to the `;` that starts a comment. -/
def dropComment : List Char → List Char
  | [] => []
  | c :: cs => if c = ';' then [] else c :: dropComment cs

/-- The maximal runs of characters other than space and tab. The second argument is the run being read, reversed. -/
def splitTokens : List Char → List Char → List (List Char)
  | [], [] => []
  | [], cur => [cur.reverse]
  | c :: cs, cur =>
    if c = ' ' ∨ c = '\t' then
      (if cur = [] then splitTokens cs [] else cur.reverse :: splitTokens cs [])
    else splitTokens cs (c :: cur)

/-- A command with a float operand. -/
def floatCommand (mk : Binary32 → Instr) (cs : List Char) : Option ListingLine :=
  (floatLiteral cs).map (fun f => .command (mk (floatOf f)))

/-- A command with a boolean operand. -/
def booleanCommand (mk : Bool → Instr) (cs : List Char) : Option ListingLine :=
  (booleanLiteral cs).map (fun b => .command (mk b))

/-- The line its tokens spell, if they spell one. DESIGN CHOICE (log entry 11): a line with no token, empty or a comment
only, is legal and stands for no word; R81 speaks of one command per line and names no such line. -/
def parseTokens : List (List Char) → Option ListingLine
  | [] => some .blank
  | [name] => if name = "PROCESS".toList then some (.command .process) else none
  | [name, x] =>
    if name = "INIT".toList then floatCommand .init x
    else if name = "SETCF".toList then floatCommand .setcf x
    else if name = "SETMF".toList then floatCommand .setmf x
    else if name = "SETMR".toList then floatCommand .setmr x
    else if name = "SETMO".toList then floatCommand .setmo x
    else if name = "SETSYNC".toList then booleanCommand .setsync x
    else if name = "SETINCL".toList then booleanCommand .setincl x
    else if name = ".word".toList then (wordLiteral x).map .word
    else none
  | [name, star, n] =>
    if name = "PROCESS".toList ∧ star = "*".toList then (decimalNat n).map .processRepeated else none
  | _ => none

/-- One line of text (R81). -/
def parseLine (line : List Char) : Option ListingLine := parseTokens (splitTokens (dropComment line) [])

/-- The words of a listing, if every line of it is well formed. -/
def assemble : List (List Char) → Option (List CommandWord)
  | [] => some []
  | line :: rest =>
    match parseLine line, assemble rest with
    | some l, some ws => some (l.words ++ ws)
    | _, _ => none

end Sys2Proof.Machine
end

