-- ==== Sys2Proof/Safety.lean ====
section
/-! DEFINITION. What claims are stated in: the legal parameters, the invariant of the state, a phase in range, a run. -/

namespace Sys2Proof.Machine

open Sys2Proof.Config (Params)

/-- Property S1 of the sine generator (00_scope.md R8). -/
def SinRange (p : Params) : Prop :=
  ∀ x, isFinite x = true →
    isFinite (p.sin x) = true ∧ -1 ≤ toRat (p.sin x) ∧ toRat (p.sin x) ≤ 1

/-- Property S2 (R8). -/
def SinZero (p : Params) : Prop := p.sin plusZero = plusZero

/-- Property S3 (R8), with `SIN_ERR` in [0, 1). -/
def SinAccurate (p : Params) : Prop :=
  0 ≤ p.sinErr ∧ p.sinErr < 1 ∧
    ∀ x, isFinite x = true →
      |((toRat (p.sin x) : ℚ) : ℝ) - Real.sin ((toRat x : ℚ) : ℝ)| ≤ (p.sinErr : ℝ)

/-- The parameters meet R5: `BUF_MAX` in its range, the sine generator with S1 to S3. -/
def Legal (p : Params) : Prop :=
  2 ≤ p.bufMax ∧ p.bufMax ≤ 2 ^ 24 ∧ SinRange p ∧ SinZero p ∧ SinAccurate p

/-- A response word the core can produce (30_encoding.md R79, R80): a status from 0 to 3, and no data with an error. -/
def legalResponse (r : ResponseWord) : Prop :=
  (responseStatus r).toNat ≤ 3 ∧ (responseStatus r ≠ 0#4 → responseData r = 0#32)

/-- The cursor invariant (10_state.md R39). -/
def CursorInv (s : State) : Prop :=
  s.writeIndex < s.bufLen ∧ s.readIndex < s.bufLen ∧ s.readIndex = (s.writeIndex + 1) % s.bufLen

/-- What every reachable state meets: the legal values of R20, for the registers that INIT has given one. -/
structure Inv (p : Params) (s : State) : Prop where
  canonical : s.buffer.wf = true
  within : s.initialized = true → s.buffer.within s.bufLen = true
  rate : s.initialized = true → isFinite s.sampleRate = true ∧ 2 ≤ toRat s.sampleRate
  length : s.initialized = true →
    s.bufLen = FLOORI s.sampleRate ∧ 2 ≤ s.bufLen ∧ s.bufLen ≤ p.bufMax
  cursors : s.initialized = true → CursorInv s
  range : s.initialized = true →
    isNaN s.modRangeSamples = true ∨
      (isFinite s.modRangeSamples = true ∧
        0 ≤ toRat s.modRangeSamples ∧ toRat s.modRangeSamples ≤ s.bufLen)
  offset : s.initialized = true → s.modOffsetSamples ≤ s.bufLen
  presented : ∀ r, s.rsp = some r → legalResponse r
  answered : ∀ r ∈ s.delivered, legalResponse r

/-- A finite phase in [0, `TWO_PI`) (R28, R40). -/
def PhaseInRange (x : Binary32) : Prop :=
  isFinite x = true ∧ 0 ≤ toRat x ∧ toRat x < toRat TWO_PI

/-- A finite sample in [-1, 1] (R121). -/
def UnitSample (x : Binary32) : Prop := isFinite x = true ∧ -1 ≤ toRat x ∧ toRat x ≤ 1

/-- A step that ends in a next state. -/
def Completes (r : Result) : Prop := ∃ t, r = .next t

/-- The steps the core makes, under any parameters, and the state after them (R181). -/
def runWith (p : Params) : Nat → State → Result
  | 0, s => .next s
  | n + 1, s =>
    match stepWith p s with
    | .next t => runWith p n t
    | .fault f => .fault f
    | .refused r => .refused r

/-- A run of this length neither faults nor refuses. -/
def SafeFor (p : Params) (n : Nat) (s : State) : Prop := Completes (runWith p n s)

/-- One command after another, the second only if the first answers a next state. -/
def Result.andThen (r : Result) (k : State → Result) : Result :=
  match r with
  | .next t => k t
  | .fault f => .fault f
  | .refused r => .refused r

/-- The state an accepted INIT with this rate leaves after hardware reset, its response taken (70_reset_and_hazards.md
R172). -/
def State.booted (p : Params) (rate : Binary32) : State := State.reset.initialise p rate

/-- Two states that differ at most in what is unspecified after hardware reset (10_state.md R41): both uninitialised, and
alike in `errSticky`, the port and the model's own fields. -/
def HiddenAlike (s t : State) : Prop :=
  s.initialized = false ∧ t.initialized = false ∧ s.errSticky = t.errSticky ∧ s.rsp = t.rsp ∧
    s.host = t.host ∧ s.delivered = t.delivered ∧ s.draws = t.draws

/-- What the host sees of a run's end: whether it stopped, the responses delivered and the output pins (R180). -/
def observed : Result → Option (List ResponseWord × Outputs)
  | .next t => some (t.delivered, outputs t)
  | .fault _ => none
  | .refused _ => none

/-! ### The carrier samples the buffer holds -/

/-- The carrier samples of the PROCESS commands since the last accepted INIT, oldest first, after one more command word: an
accepted PROCESS adds its own, an accepted INIT starts afresh, and every other word, rejected ones among them, adds nothing
(20_memory.md R62). -/
def samplesAfter (p : Params) (w : CommandWord) (s : State) (h : List Binary32) : List Binary32 :=
  match decode w with
  | .ok .process => if s.initialized then h ++ [carrierSample p s] else h
  | .ok (.init rate) => if initOperandLegal p.bufMax rate then [] else h
  | _ => h

/-- The same after one step, which runs a word only if the host presents one and the port is ready. -/
def samplesAfterStep (p : Params) (s : State) (h : List Binary32) : List Binary32 :=
  match s.host, s.rsp with
  | .command w :: rest, none => samplesAfter p w { s with host := rest } h
  | _, _ => h

/-- The buffer is a delay line of these samples (20_memory.md R62, 10_state.md R39): with n of them written, the cursors are
n and n + 1 modulo L, each of the last L stands at its index modulo L, and an entry not yet written is +0.0. -/
structure DelayLine (h : List Binary32) (s : State) : Prop where
  canonical : s.buffer.wf = true
  length : 2 ≤ s.bufLen
  writeCursor : s.writeIndex = h.length % s.bufLen
  readCursor : s.readIndex = (h.length + 1) % s.bufLen
  written : ∀ k, k < h.length → h.length ≤ k + s.bufLen → s.buffer.read (k % s.bufLen) = h.getD k plusZero
  unwritten : ∀ j, h.length ≤ j → s.buffer.read j = plusZero

/-- The carrier sample of k PROCESS commands earlier, the one just before for k = 1, and +0.0 where there is none. -/
def sampleAgo (h : List Binary32) (k : Nat) : Binary32 := h.reverse.getD (k - 1) plusZero

/-- How many PROCESS commands ago the sample was written that a read offset selects, the offset taken modulo L: L for 1,
L - 1 for 0, d - 1 for every other d (20_memory.md R62). -/
def delayOf (d len : Nat) : Nat := if d = 1 then len else if d = 0 then len - 1 else d - 1

/-- The commands that write one configuration register (42_config.md R136). -/
def isSetter : Instr → Bool
  | .init _ => false
  | .process => false
  | .setcf _ => true
  | .setmf _ => true
  | .setmr _ => true
  | .setmo _ => true
  | .setsync _ => true
  | .setincl _ => true

end Sys2Proof.Machine
end

