-- ==== Sys2Proof/Certificates/Slice0/Obligations.lean ====
section
/-! DEFINITION. The statements for the provers. -/

open Sys2Proof Sys2Proof.Machine
open Sys2Proof.Config (Params NanDraw)

/-! ### Encoding -/

/-- Words written out from R74's encodings, one a command, decode to the command they stand for, and one word of each
kind of R75 and R76 is refused. -/
def Obligations.ListedWordsDecode : Prop :=
  decode 0x01473B8000#40 = .ok (.init 0x473B8000#32) ∧
  decode 0x0200000000#40 = .ok .process ∧
  decode 0x10435C0000#40 = .ok (.setcf 0x435C0000#32) ∧
  decode 0x11425C0000#40 = .ok (.setmf 0x425C0000#32) ∧
  decode 0x123F000000#40 = .ok (.setmr 0x3F000000#32) ∧
  decode 0x133E800000#40 = .ok (.setmo 0x3E800000#32) ∧
  decode 0x1400000001#40 = .ok (.setsync true) ∧
  decode 0x1500000000#40 = .ok (.setincl false) ∧
  decode 0x0300000000#40 = .error (.unassignedOpcode 0x03#8) ∧
  decode 0x1600000000#40 = .error (.reservedOpcode 0x16#8) ∧
  decode 0x0200000001#40 = .error (.operandNotZero 0x00000001#32) ∧
  decode 0x1400000002#40 = .error (.booleanNotOneBit 0x14#8 0x00000002#32)

/-- DECODE AND ENCODE AGREE, over every command with every operand (R70 to R74). -/
def Obligations.DecodeInvertsEncode : Prop :=
  ∀ i : Instr, i.wf = true → decode (encode i) = .ok i

/-- No legal word has a bit the decoder ignores: a word that decodes is the encoding of what it decodes to (R71, R75). -/
def Obligations.EncodeInvertsDecode : Prop :=
  ∀ (w : CommandWord) (i : Instr), decode w = .ok i → encode i = w

/-- R74: the rows are disjoint, and a word decodes to a command of exactly the row that matches it. -/
def Obligations.OpcodeRowsAreDisjoint : Prop :=
  (∀ (w : CommandWord) (a b : OpcodeRow), a ∈ opcodeTable → b ∈ opcodeTable →
      a.matches w = true → b.matches w = true → a = b) ∧
    ∀ (w : CommandWord) (i : Instr), decode w = .ok i →
      ∃ row ∈ opcodeTable, row.matches w = true ∧ row.mnemonic = i.mnemonic

/-- R75: the illegal words are exactly those of (a), (b) and (c), which are those that match no row of the table. Every
other word is a command, and an illegal one is rejected with `ERR_ILLEGAL_CMD` whatever the state. -/
def Obligations.IllegalWordsAreExactlyThese : Prop :=
  ∀ w : CommandWord,
    ((∃ e, decode w = .error e) ↔
      (w.extractLsb' 32 8 ∉ [0x01#8, 0x02#8, 0x10#8, 0x11#8, 0x12#8, 0x13#8, 0x14#8, 0x15#8]) ∨
      (w.extractLsb' 32 8 = 0x02#8 ∧ w.extractLsb' 0 32 ≠ 0#32) ∨
      ((w.extractLsb' 32 8 = 0x14#8 ∨ w.extractLsb' 32 8 = 0x15#8) ∧ w.extractLsb' 1 31 ≠ 0#31)) ∧
    ((∃ e, decode w = .error e) ↔ ∀ row ∈ opcodeTable, row.matches w = false) ∧
    ((∃ e, decode w = .error e) ∨ ∃ i, decode w = .ok i) ∧
    ∀ s : State, (∃ e, decode w = .error e) →
      runWord w s = .next { s with errSticky := true, rsp := some 0x100000000#36 }

/-- R82 and R81: `PROCESS * n` is n PROCESS words, and lines of the textual form are the words the spec lists for them. -/
def Obligations.ListingsAssemble : Prop :=
  (∀ n : Nat, (ListingLine.processRepeated n).words = List.replicate n 0x0200000000#40) ∧
    assemble ["SETCF 220.0".toList, "SETMR 0x7FC00000".toList, ".word 0x0000000000".toList, "PROCESS * 2 ; twice".toList] =
      some [0x10435C0000#40, 0x127FC00000#40, 0x0000000000#40, 0x0200000000#40, 0x0200000000#40]

/-! ### Steps, the port and reset -/

/-- A step runs the command presented: where the port is ready and the word decodes, the step is `exec` of that command
with the host's move taken from its list (R83, R84). -/
def Obligations.StepRunsPresentedCommand : Prop :=
  ∀ (s : State) (w : CommandWord) (rest : List HostMove) (i : Instr),
    s.host = .command w :: rest → s.rsp = none → decode w = .ok i →
      step s = exec i { s with host := rest }

/-- R151: a word with an unassigned opcode, PROCESS with an operand, and a switch with a bit among `cmd[31:1]` are rejected
with `ERR_ILLEGAL_CMD`, in every state, initialised or not. -/
def Obligations.StepRejectsIllegalWord : Prop :=
  ∀ (s : State) (w : CommandWord) (rest : List HostMove),
    s.host = .command w :: rest → s.rsp = none →
    (w.extractLsb' 32 8 ∉ [0x01#8, 0x02#8, 0x10#8, 0x11#8, 0x12#8, 0x13#8, 0x14#8, 0x15#8] ∨
      (w.extractLsb' 32 8 = 0x02#8 ∧ w.extractLsb' 0 32 ≠ 0#32) ∨
      ((w.extractLsb' 32 8 = 0x14#8 ∨ w.extractLsb' 32 8 = 0x15#8) ∧ w.extractLsb' 1 31 ≠ 0#31)) →
      step s = .next { s with host := rest, errSticky := true, rsp := some 0x100000000#36 }

/-- R83, R84, R165: while a response waits the core takes no command, and the host may take the response meanwhile and still
holds its word. A response the host is ready for is delivered in order and the port is ready again. A core with nothing to
do holds its state. The pins show which. THE MODEL'S CHOICES, and no rule's: that a held word with nothing or another
command next changes nothing and that readiness with no response is used up (log entry 8), that a held word survives a
reset (log entry 15), and the values that reset leaves in the registers the spec leaves unspecified (log entry 1). -/
def Obligations.PortHandshake : Prop :=
  (∀ (s : State) (w : CommandWord) (rest : List HostMove) (r : ResponseWord),
    s.host = .command w :: rest → s.rsp = some r →
      (outputs s).cmdReady = false ∧
      (rest = [] ∨ (∃ v later, rest = .command v :: later) → step s = .next s) ∧
      (∀ later, rest = .takeResponse :: later →
        step s = .next { s with host := .command w :: later, rsp := none, delivered := s.delivered ++ [r] }) ∧
      (∀ later, rest = .reset :: later → step s = .next { s with host := .command w :: later }.hardwareReset)) ∧
  (∀ (s : State) (rest : List HostMove) (r : ResponseWord),
    s.host = .takeResponse :: rest → s.rsp = some r →
      (outputs s).rspValid = true ∧ (outputs s).rspData = some r ∧
      ∃ t, step s = .next t ∧ t = { s with host := rest, rsp := none, delivered := s.delivered ++ [r] } ∧
        (outputs t).cmdReady = true ∧ (outputs t).rspValid = false) ∧
  (∀ (s : State) (rest : List HostMove),
    s.host = .takeResponse :: rest → s.rsp = none → step s = .next { s with host := rest }) ∧
  (∀ s : State, s.host = [] → step s = .next s)

/-- R170, R171, R41: hardware reset at any time, also while a response waits: both flags 0, the response abandoned, the
pins as R171 gives them. What was delivered before and the host's further moves are untouched. The state right after
reset has the same flags and pins. -/
def Obligations.HardwareResetClearsFlagsAndPort : Prop :=
  (∀ (s : State) (rest : List HostMove), s.host = .reset :: rest →
    ∃ t, step s = .next t ∧ t.initialized = false ∧ t.errSticky = false ∧
      t.host = rest ∧ t.delivered = s.delivered ∧
      outputs t = { cmdReady := true, rspValid := false, rspData := none, errStickyPin := false }) ∧
    State.reset.initialized = false ∧ State.reset.errSticky = false ∧
    outputs State.reset = { cmdReady := true, rspValid := false, rspData := none, errStickyPin := false }

/-- R41: what is unspecified after hardware reset cannot be observed. From two states that differ only in that, under any
parameters and for any number of steps, the host sees the same. -/
def Obligations.UnspecifiedRegistersAreUnobservable : Prop :=
  ∀ (p : Params) (n : Nat) (s t : State), HiddenAlike s t →
    observed (runWith p n s) = observed (runWith p n t)

/-- R41, R90: one step from two such states leaves them so, or makes them equal (an accepted INIT, a reset). -/
def Obligations.StepHidesOrSettles : Prop :=
  ∀ (p : Params) (s t : State), HiddenAlike s t →
    ∃ s' t', stepWith p s = .next s' ∧ stepWith p t = .next t' ∧ (s' = t' ∨ HiddenAlike s' t')

/-- R79, R80: every command word accepted, legal or not, in every state that meets the invariant, presents exactly one
response: a status from 0 to 3, no data unless it is an accepted PROCESS's. -/
def Obligations.EveryCommandIsAnswered : Prop :=
  ∀ (p : Params) (s : State) (w : CommandWord), Legal p → Inv p s →
    ∃ t r, runWordWith p w s = .next t ∧ t.rsp = some r ∧ t.host = s.host ∧ t.delivered = s.delivered ∧
      (responseStatus r).toNat ≤ 3 ∧
      (responseData r ≠ 0#32 → responseStatus r = 0#4 ∧ decode w = .ok .process)

/-- The core's `exec` and `step` are the parametric meanings at the core's parameters (R5). -/
def Obligations.CoreIsAnInstance : Prop :=
  (∀ (i : Instr) (s : State), exec i s = execWith coreParams i s) ∧
    ∀ s : State, step s = stepWith coreParams s

/-- R5, R8: the core's parameters are legal: `BUF_MAX` in its range, the sine generator with properties S1, S2 and S3 and a
`SIN_ERR` in [0, 1). -/
def Obligations.CoreParametersAreLegal : Prop := Legal coreParams

/-! ### INIT -/

/-- R91: `InitOperandLegal` holds exactly for a finite operand whose floor lies in [2, BUF_MAX]. In particular it rejects
every value below 2.0, the negative ones, both zeros and the subnormals among them. -/
def Obligations.InitOperandLegalMeans : Prop :=
  ∀ (bufMax : Nat) (x : Binary32),
    (initOperandLegal bufMax x = true ↔
      isNaN x = false ∧ isInf x = false ∧ fge x 0x40000000#32 = true ∧ FLOORI x ≤ bufMax) ∧
    (initOperandLegal bufMax x = true ↔
      isFinite x = true ∧ 2 ≤ ⌊toRat x⌋ ∧ ⌊toRat x⌋ ≤ (bufMax : Int)) ∧
    (toRat x < 2 → initOperandLegal bufMax x = false)

/-- R90: an accepted INIT completes: every register is written, `errSticky` and all else is left, every buffer entry is
+0.0, and the default range is a quarter of the buffer length. -/
def Obligations.InitSetsEveryRegister : Prop :=
  ∀ (rate : Binary32) (s : State), initOperandLegal coreParams.bufMax rate = true →
    ∃ range : Binary32,
      exec (.init rate) s = .next
        { s with
          initialized := true
          sampleRate := rate
          bufLen := FLOORI rate
          buffer := Memory.cleared
          writeIndex := 0
          readIndex := 1
          carrierPhase := 0x00000000#32
          modulatorPhase := 0x00000000#32
          carrierFreqHz := 0x42DC0000#32
          modFreqHz := 0x42DC0000#32
          modRangeSamples := range
          modOffsetSamples := 1
          syncEnabled := true
          includeCarrier := false
          rsp := some 0x000000000#36 } ∧
      (∀ i, Memory.cleared.read i = 0x00000000#32) ∧
      (FLOORI rate : Int) = ⌊toRat rate⌋ ∧
      isFinite range = true ∧ toRat range = (FLOORI rate : ℚ) / 4

/-- R153, R157: INIT with a NaN, an infinity, an operand less than 2.0 or one whose floor is above `BUF_MAX` is rejected
with `ERR_BAD_RATE`. An initialised core stays initialised, with every register and the buffer as they were. -/
def Obligations.InitRejectsBadRate : Prop :=
  ∀ (rate : Binary32) (s : State),
    isNaN rate = true ∨ isInf rate = true ∨ flt rate 0x40000000#32 = true ∨ coreParams.bufMax < FLOORI rate →
    exec (.init rate) s = .next { s with errSticky := true, rsp := some 0x300000000#36 }

/-- R92, R173: an accepted INIT forgets everything: from states alike in `errSticky` (and in the host's side and the
model's draw count) it gives the same state. -/
def Obligations.InitForgetsEverything : Prop :=
  ∀ (p : Params) (rate : Binary32) (s t : State), initOperandLegal p.bufMax rate = true →
    s.errSticky = t.errSticky → s.host = t.host → s.delivered = t.delivered → s.draws = t.draws →
      ∃ u, execWith p (.init rate) s = .next u ∧ execWith p (.init rate) t = .next u

/-! ### The configuration commands -/

/-- R130, R131, R134, R135: SETCF, SETMF, SETSYNC and SETINCL complete while initialised: all 32 bits of a frequency,
whatever they are, or the one bit of a switch are stored unchanged, and nothing else changes but the response. -/
def Obligations.VerbatimSettersStoreTheOperand : Prop :=
  ∀ (hz : Binary32) (b : Bool) (s : State), s.initialized = true →
    exec (.setcf hz) s = .next { s with carrierFreqHz := hz, rsp := some 0x000000000#36 } ∧
      exec (.setmf hz) s = .next { s with modFreqHz := hz, rsp := some 0x000000000#36 } ∧
      exec (.setsync b) s = .next { s with syncEnabled := b, rsp := some 0x000000000#36 } ∧
      exec (.setincl b) s = .next { s with includeCarrier := b, rsp := some 0x000000000#36 }

/-- R132, R11: SETMR completes while initialised: a NaN fraction stores a NaN, and any other stores the clamped fraction
times the buffer length, the exact product rounded to nearest, in [0, L]: a fraction below 0 stores +0.0 and one above
1 stores L. Nothing else changes but the response and the model's draw count. -/
def Obligations.RangeSetterStoresClampedShare : Prop :=
  ∀ (x : Binary32) (s : State), s.initialized = true → s.bufLen ≤ 2 ^ 24 →
    ∃ stored : Binary32,
      exec (.setmr x) s = .next
        { s with modRangeSamples := stored, draws := s.draws + 1, rsp := some 0x000000000#36 } ∧
      (isNaN x = true → isNaN stored = true) ∧
      (isNaN x = false →
        isFinite stored = true ∧ 0 ≤ toRat stored ∧ toRat stored ≤ s.bufLen ∧
        (flt x 0x00000000#32 = true → stored = 0x00000000#32) ∧
        (fgt x 0x3F800000#32 = true → toRat stored = s.bufLen) ∧
        (0 ≤ toRat x → toRat x ≤ 1 →
          ∀ c : Binary32, |toRat stored - toRat x * s.bufLen| ≤ |toRat c - toRat x * s.bufLen|))

/-- R133, R33: SETMO completes while initialised: a NaN fraction stores 0, and any other stores the floor of the clamped
fraction times the buffer length after that product's one rounding, an integer in [0, L]. Nothing else changes but the
response. -/
def Obligations.OffsetSetterStoresTruncatedShare : Prop :=
  ∀ (x : Binary32) (s : State), s.initialized = true → s.bufLen ≤ 2 ^ 24 →
    ∃ stored : Nat,
      exec (.setmo x) s = .next { s with modOffsetSamples := stored, rsp := some 0x000000000#36 } ∧
      stored ≤ s.bufLen ∧
      (isNaN x = true → stored = 0) ∧
      (isNaN x = false → ∀ draw : NanDraw,
        (stored : Int) = ⌊toRat (fmul draw (clamp01 x) (ITOF s.bufLen))⌋) ∧
      (flt x 0x00000000#32 = true → stored = 0) ∧
      (fge x 0x3F800000#32 = true → stored = s.bufLen)

/-- R152: while `initialized` = 0 every command but INIT is rejected with `ERR_NOT_INIT`. -/
def Obligations.UninitialisedCommandsAreRejected : Prop :=
  ∀ (i : Instr) (s : State), s.initialized = false → (∀ rate, i ≠ .init rate) →
    exec i s = .next { s with errSticky := true, rsp := some 0x200000000#36 }

/-- R136: two setters of different registers do not interact: in either order they leave the same state. Of two settings
of one register only the second shows. (SETMR is left out of this: of two NaN fractions the second stores a NaN whose bits
are a later draw's.) -/
def Obligations.SettersAreIndependentAndTheLastWins : Prop :=
  ∀ (p : Params) (i j : Instr) (s : State), s.initialized = true →
    isSetter i = true → isSetter j = true →
    (i.mnemonic ≠ j.mnemonic →
      (execWith p i s).andThen (execWith p j) = (execWith p j s).andThen (execWith p i)) ∧
    (i.mnemonic = j.mnemonic → i.mnemonic ≠ "SETMR" →
      (execWith p i s).andThen (execWith p j) = execWith p j s)

/-! ### PROCESS -/

/-- R100: an accepted PROCESS completes, and does exactly what lines P1a to P14 say, in their order. -/
def Obligations.ProcessFollowsItsLines : Prop :=
  ∀ s : State, s.initialized = true → s.writeIndex < s.bufLen →
    let nan := coreParams.nan s.draws
    let incC := fdiv (nan .incrementQuotient) (fmul (nan .incrementProduct) 0x40C90FDB#32 s.carrierFreqHz) s.sampleRate
    let th0 := fadd (nan .carrierSum) s.carrierPhase incC
    let incM := fdiv (nan .incrementQuotient) (fmul (nan .incrementProduct) 0x40C90FDB#32 s.modFreqHz) s.sampleRate
    let be0 := fadd (nan .modulatorSum) s.modulatorPhase incM
    let th := if fge th0 0x40C90FDB#32 = true then fsub (nan .carrierWrap) th0 0x40C90FDB#32 else th0
    let be1 := if fge th0 0x40C90FDB#32 = true ∧ s.syncEnabled = true then incM else be0
    let be :=
      if s.syncEnabled = false ∧ fge be1 0x40C90FDB#32 = true then fsub (nan .modulatorWrap) be1 0x40C90FDB#32
      else be1
    let cs := coreParams.sin th
    let coeff := coreParams.sin be
    let prod := fmul (nan .product) coeff s.modRangeSamples
    let offset := FTOI prod + s.modOffsetSamples
    let rp := emod ((s.readIndex : Int) - offset + s.bufLen) s.bufLen
    let sample := s.buffer.read rp.toNat
    let out := if s.includeCarrier = true then fadd (nan .mixer) sample cs else sample
    exec .process s = .next
      { s with
        carrierPhase := th
        modulatorPhase := be
        readIndex := if s.readIndex + 1 = s.bufLen then 0 else s.readIndex + 1
        buffer := s.buffer.write s.writeIndex cs
        writeIndex := if s.writeIndex + 1 = s.bufLen then 0 else s.writeIndex + 1
        draws := s.draws + 1
        rsp := some (0x0#4 ++ out) }

/-- R114, R42: PROCESS stores its carrier sample, never the mixer's sum, at the write cursor, every other buffer entry
reads as before, and no configuration register or flag changes. -/
def Obligations.ProcessFrame : Prop :=
  ∀ (p : Params) (s t : State), s.initialized = true → s.buffer.wf = true →
    execWith p .process s = .next t →
      t.buffer.read s.writeIndex = p.sin t.carrierPhase ∧
      (∀ a, a ≠ s.writeIndex → t.buffer.read a = s.buffer.read a) ∧
      t.initialized = s.initialized ∧ t.errSticky = s.errSticky ∧ t.sampleRate = s.sampleRate ∧
      t.bufLen = s.bufLen ∧ t.carrierFreqHz = s.carrierFreqHz ∧ t.modFreqHz = s.modFreqHz ∧
      t.modRangeSamples = s.modRangeSamples ∧ t.modOffsetSamples = s.modOffsetSamples ∧
      t.syncEnabled = s.syncEnabled ∧ t.includeCarrier = s.includeCarrier ∧
      t.host = s.host ∧ t.delivered = s.delivered

/-- R112, R115, R39: both cursors advance by one and wrap to 0 at L, which under the cursor invariant is addition modulo
L and keeps the invariant. -/
def Obligations.CursorsAdvanceByOne : Prop :=
  ∀ (p : Params) (s t : State), s.initialized = true → execWith p .process s = .next t →
    t.readIndex = (if s.readIndex + 1 = s.bufLen then 0 else s.readIndex + 1) ∧
    t.writeIndex = (if s.writeIndex + 1 = s.bufLen then 0 else s.writeIndex + 1) ∧
    (CursorInv s →
      t.readIndex = (s.readIndex + 1) % s.bufLen ∧ t.writeIndex = (s.writeIndex + 1) % s.bufLen ∧ CursorInv t)

/-- R110, R57: the read pointer is in [0, L) for every integer offset, also where the offset is beyond `readIndex` + L,
and the L that is added changes nothing. -/
def Obligations.ReadPointerIsInRange : Prop :=
  ∀ (r len : Nat) (offset : Int), 0 < len →
    0 ≤ pointerAt r offset len ∧ pointerAt r offset len < len ∧
      pointerAt r offset len = emod ((r : Int) - offset) len ∧
      (len : Int) ∣ ((r : Int) - offset) - pointerAt r offset len

/-- R111, R177, R58: the sample read is the buffer's content before this PROCESS writes. The entry read is the one about
to be written exactly when the offset is 1 modulo L. -/
def Obligations.ProcessReadsBeforeItWrites : Prop :=
  ∀ (p : Params) (s t : State), s.initialized = true → 2 ≤ s.bufLen → CursorInv s → s.includeCarrier = false →
    execWith p .process s = .next t →
      t.rsp = some (0x0#4 ++ s.buffer.read (readPointer p s).toNat) ∧
      (readPointer p s = s.writeIndex ↔ emod (readOffset p s) s.bufLen = 1)

/-- R104, R105: the phases after a PROCESS with sync on (the modulator is replaced by one increment where the carrier
wraps, and is never wrapped by its own test) and with sync off (each wraps by its own test). -/
def Obligations.PhasesWrapAndSync : Prop :=
  ∀ (p : Params) (s t : State), s.initialized = true → execWith p .process s = .next t →
    let th := fadd (p.nan s.draws .carrierSum) s.carrierPhase (carrierIncrement p s)
    let be := fadd (p.nan s.draws .modulatorSum) s.modulatorPhase (modulatorIncrement p s)
    (fge th TWO_PI = false → t.carrierPhase = th) ∧
    (fge th TWO_PI = true → t.carrierPhase = fsub (p.nan s.draws .carrierWrap) th TWO_PI) ∧
    (s.syncEnabled = true → fge th TWO_PI = true → t.modulatorPhase = modulatorIncrement p s) ∧
    (s.syncEnabled = true → fge th TWO_PI = false → t.modulatorPhase = be) ∧
    (s.syncEnabled = false → fge be TWO_PI = true →
      t.modulatorPhase = fsub (p.nan s.draws .modulatorWrap) be TWO_PI) ∧
    (s.syncEnabled = false → fge be TWO_PI = false → t.modulatorPhase = be)

/-- R101: equal frequency registers give the same increment, bit for bit, and the increments of R101's examples. -/
def Obligations.IncrementsFollowTheRegisters : Prop :=
  (∀ (p : Params) (s : State), s.carrierFreqHz = s.modFreqHz → carrierIncrement p s = modulatorIncrement p s) ∧
    ∀ (p : Params) (d : Nat),
      increment p d 0x42DC0000#32 0x473B8000#32 = 0x3C6BE9A5#32 ∧
      increment p d 0x42DC0000#32 0x472C4400#32 = 0x3C80634A#32 ∧
      increment p d 0x3F800000#32 0x41000000#32 = 0x3F490FDB#32

/-- R108, R109 (d): with a finite modulator phase, and in a state that meets the invariant with a range that is no NaN,
the product's magnitude is at most the range and the offset lies in [-L, 2L]. -/
def Obligations.ReadOffsetIsBounded : Prop :=
  ∀ (p : Params) (s : State), Legal p → Inv p s → s.initialized = true →
    isNaN s.modRangeSamples = false → isFinite (nextModulatorPhase p s) = true →
      isFinite (modProduct p s) = true ∧ |toRat (modProduct p s)| ≤ toRat s.modRangeSamples ∧
      -(s.bufLen : Int) ≤ readOffset p s ∧ readOffset p s ≤ 2 * s.bufLen

/-- R118: a signed register of 34 bits holds every intermediate of the address calculator. -/
def Obligations.AddressArithmeticFitsIn34Bits : Prop :=
  ∀ (p : Params) (s : State), Legal p → Inv p s → s.initialized = true →
    -(2 : Int) ^ 31 ≤ readOffset p s ∧ readOffset p s ≤ 2 ^ 31 - 1 + 2 ^ 24 ∧
    -(2 : Int) ^ 31 - 2 ^ 24 + 1 ≤ s.readIndex - readOffset p s ∧
    -(2 : Int) ^ 31 + 1 ≤ s.readIndex - readOffset p s + s.bufLen ∧
    s.readIndex - readOffset p s + s.bufLen ≤ (2 : Int) ^ 31 + 2 ^ 25 - 1

/-- R113: from one state the two settings of `includeCarrier` give v and fadd(v, cs) with the same v and cs, and leave all
else identical. -/
def Obligations.IncludeCarrierChangesOnlyTheResponse : Prop :=
  ∀ (p : Params) (s : State), s.initialized = true → s.writeIndex < s.bufLen →
    ∃ (t : State) (v : Binary32), execWith p .process { s with includeCarrier := false } = .next
          { t with includeCarrier := false, rsp := some (0x0#4 ++ v) } ∧
      execWith p .process { s with includeCarrier := true } = .next
          { t with includeCarrier := true, rsp := some (0x0#4 ++ fadd (p.nan s.draws .mixer) v (carrierSample p s)) }

/-- R113: `fadd(+0.0, x)` is x bit for bit for every non-zero x that is no NaN, and `fadd(+0.0, -0.0)` is +0.0. -/
def Obligations.AddingToZeroReturnsTheSample : Prop :=
  ∀ (draw : NanDraw) (x : Binary32),
    (isNaN x = false → toRat x ≠ 0 → fadd draw 0x00000000#32 x = x) ∧
      fadd draw 0x00000000#32 0x80000000#32 = 0x00000000#32

/-- R117, R57, R116: in a state that meets the invariant an initialised PROCESS is never rejected and never faults: it
answers `OK`. -/
def Obligations.InitialisedProcessIsAccepted : Prop :=
  ∀ (p : Params) (s : State), Inv p s → s.initialized = true →
    ∃ t r, execWith p .process s = .next t ∧ t.rsp = some r ∧ responseStatus r = 0x0#4

/-- R106, R114 and property S3 of R8: the sample an accepted PROCESS writes is within `SIN_ERR` of the real sine of the
carrier phase it leaves, where that phase is finite. -/
def Obligations.CarrierSampleTracksTheSine : Prop :=
  ∀ (p : Params) (s t : State), Legal p → s.initialized = true → s.buffer.wf = true →
    execWith p .process s = .next t → isFinite t.carrierPhase = true →
      |((toRat (t.buffer.read s.writeIndex) : ℚ) : ℝ) - Real.sin ((toRat t.carrierPhase : ℚ) : ℝ)| ≤
        (p.sinErr : ℝ)

/-! ### Degenerate values (R122) -/

/-- R122 (a): at a frequency of +0.0 or -0.0 the increment is a zero and a finite phase below `TWO_PI` does not move: the
carrier's, and with sync off the modulator's. -/
def Obligations.ZeroFrequencyHoldsThePhase : Prop :=
  ∀ (p : Params) (s t : State), Inv p s → s.initialized = true → execWith p .process s = .next t →
    (isFinite s.carrierFreqHz = true → toRat s.carrierFreqHz = 0 →
      isFinite (carrierIncrement p s) = true ∧ toRat (carrierIncrement p s) = 0 ∧
      (isFinite s.carrierPhase = true → toRat s.carrierPhase < toRat TWO_PI →
        isFinite t.carrierPhase = true ∧ toRat t.carrierPhase = toRat s.carrierPhase)) ∧
    (isFinite s.modFreqHz = true → toRat s.modFreqHz = 0 →
      isFinite (modulatorIncrement p s) = true ∧ toRat (modulatorIncrement p s) = 0 ∧
      (s.syncEnabled = false → isFinite s.modulatorPhase = true → toRat s.modulatorPhase < toRat TWO_PI →
        isFinite t.modulatorPhase = true ∧ toRat t.modulatorPhase = toRat s.modulatorPhase))

/-- R122 (b): a frequency that is not positive never raises a finite phase below `TWO_PI` that stays finite: the carrier's,
and with sync off the modulator's. -/
def Obligations.NegativeFrequencyNeverRaisesThePhase : Prop :=
  ∀ (p : Params) (s t : State), Inv p s → s.initialized = true → execWith p .process s = .next t →
    (isFinite s.carrierFreqHz = true → toRat s.carrierFreqHz ≤ 0 →
      isFinite s.carrierPhase = true → toRat s.carrierPhase < toRat TWO_PI → isFinite t.carrierPhase = true →
      toRat t.carrierPhase ≤ toRat s.carrierPhase) ∧
    (s.syncEnabled = false → isFinite s.modFreqHz = true → toRat s.modFreqHz ≤ 0 →
      isFinite s.modulatorPhase = true → toRat s.modulatorPhase < toRat TWO_PI → isFinite t.modulatorPhase = true →
      toRat t.modulatorPhase ≤ toRat s.modulatorPhase)

/-- R122 (d), (e): a frequency that is a NaN or an infinity, or whose product with `TWO_PI` overflows, makes the increment and
the phase an infinity or a NaN. A carrier phase that is one stays one through every PROCESS, and so does the modulator's
with sync off. With a NaN range the product is a NaN and the offset is the centre. -/
def Obligations.NonFiniteValuesPropagate : Prop :=
  ∀ (p : Params) (s t : State), s.initialized = true → execWith p .process s = .next t →
    (∀ (draw : NanDraw) (f : Binary32), isFinite f = false → isFinite (fmul draw TWO_PI f) = false) ∧
    (isFinite (fmul (p.nan s.draws .incrementProduct) TWO_PI s.carrierFreqHz) = false →
      isFinite (carrierIncrement p s) = false ∧ isFinite t.carrierPhase = false) ∧
    (isFinite (fmul (p.nan s.draws .incrementProduct) TWO_PI s.modFreqHz) = false →
      isFinite (modulatorIncrement p s) = false ∧ isFinite t.modulatorPhase = false) ∧
    (isFinite s.carrierPhase = false → isFinite t.carrierPhase = false) ∧
    (s.syncEnabled = false → isFinite s.modulatorPhase = false → isFinite t.modulatorPhase = false) ∧
    (isNaN s.modRangeSamples = true → isNaN (modProduct p s) = true ∧ readOffset p s = s.modOffsetSamples)

/-! ### Numbers -/

/-- R6: each of the four operations on finite operands gives the exact real result rounded once, to nearest with ties to
even, an infinity of its sign exactly from the midpoint above the largest finite value on, and never a NaN. -/
def Obligations.ArithmeticRoundsToNearestEven : Prop :=
  ∀ (draw : NanDraw) (a b : Binary32), isFinite a = true → isFinite b = true →
    let correct : ℚ → Binary32 → Prop := fun v x =>
      isNaN x = false ∧
      (isInf x = true ↔ (2 : ℚ) ^ 128 - 2 ^ 103 ≤ |v|) ∧
      (0 < v → signBit x = false) ∧ (v < 0 → signBit x = true) ∧
      (isFinite x = true → ∀ c : Binary32, |toRat x - v| ≤ |toRat c - v| ∧
        (|toRat x - v| = |toRat c - v| → toRat c ≠ toRat x → x.toNat % 2 = 0))
    correct (toRat a + toRat b) (fadd draw a b) ∧
    correct (toRat a - toRat b) (fsub draw a b) ∧
    correct (toRat a * toRat b) (fmul draw a b) ∧
    (toRat b ≠ 0 → correct (toRat a / toRat b) (fdiv draw a b))

/-- The operations on every pair of operands of which one is no finite value, and on a zero divisor. R6 says that a NaN
operand, inf - inf, 0 x inf, 0/0 and inf/inf give a NaN, and that a finite non-zero value over a zero gives an infinity. THE
REST IS THE MODEL'S READING (log entry 7): an infinity passes through a sum, a product and a quotient, a finite value over an
infinity is a zero, and products and quotients have the sign the operands' signs give. -/
def Obligations.ArithmeticOnSpecialValues : Prop :=
  ∀ (draw : NanDraw) (a b : Binary32),
    (isNaN a = true ∨ isNaN b = true →
      isNaN (fadd draw a b) = true ∧ isNaN (fsub draw a b) = true ∧ isNaN (fmul draw a b) = true ∧
        isNaN (fdiv draw a b) = true) ∧
    (isInf a = true → isInf b = true →
      (signBit a ≠ signBit b → isNaN (fadd draw a b) = true ∧ fsub draw a b = a) ∧
      (signBit a = signBit b → fadd draw a b = a ∧ isNaN (fsub draw a b) = true) ∧
      fmul draw a b = pack (signBit a != signBit b) 0x7F800000 ∧ isNaN (fdiv draw a b) = true) ∧
    (isInf a = true → isFinite b = true →
      fadd draw a b = a ∧ fadd draw b a = a ∧ fsub draw a b = a ∧ fsub draw b a = pack (!signBit a) 0x7F800000 ∧
      (toRat b = 0 → isNaN (fmul draw a b) = true ∧ isNaN (fmul draw b a) = true) ∧
      (toRat b ≠ 0 → fmul draw a b = pack (signBit a != signBit b) 0x7F800000 ∧
        fmul draw b a = pack (signBit a != signBit b) 0x7F800000) ∧
      fdiv draw a b = pack (signBit a != signBit b) 0x7F800000 ∧ fdiv draw b a = pack (signBit a != signBit b) 0) ∧
    (isFinite a = true → isFinite b = true → toRat b = 0 →
      (toRat a = 0 → isNaN (fdiv draw a b) = true) ∧
      (toRat a ≠ 0 → fdiv draw a b = pack (signBit a != signBit b) 0x7F800000))

/-- R6: the comparisons are exact on the real values of finite operands and false whenever either operand is a NaN. -/
def Obligations.ComparisonsAreExact : Prop :=
  ∀ a b : Binary32,
    (isFinite a = true → isFinite b = true →
      (fge a b = true ↔ toRat b ≤ toRat a) ∧ (flt a b = true ↔ toRat a < toRat b) ∧
        (fgt a b = true ↔ toRat b < toRat a)) ∧
    (isNaN a = true ∨ isNaN b = true → fge a b = false ∧ flt a b = false ∧ fgt a b = false)

/-- R9: `FTOI` truncates toward zero inside (-2^31, 2^31), saturates outside and gives 0 for a NaN. -/
def Obligations.FtoiTruncatesAndSaturates : Prop :=
  ∀ x : Binary32,
    (isNaN x = true → FTOI x = 0) ∧
    (isFinite x = true → 0 ≤ toRat x → toRat x < 2 ^ 31 → FTOI x = ⌊toRat x⌋) ∧
    (isFinite x = true → toRat x < 0 → -2 ^ 31 < toRat x → FTOI x = ⌈toRat x⌉) ∧
    (isNaN x = false → 2 ^ 31 ≤ toRat x → FTOI x = 2147483647) ∧
    (isNaN x = false → toRat x ≤ -2 ^ 31 → FTOI x = -2147483648) ∧
    FTOI 0x7F800000#32 = 2147483647 ∧ FTOI 0xFF800000#32 = -2147483648 ∧ FTOI 0x80000000#32 = 0

/-- R10: `ITOF` is exact from 0 to 2^24, and `FLOORI` of a finite value not below zero is its floor. -/
def Obligations.IntegerConversionsAreExact : Prop :=
  (∀ n : Nat, n ≤ 2 ^ 24 → isFinite (ITOF n) = true ∧ toRat (ITOF n) = n) ∧
    ∀ x : Binary32, isFinite x = true → 0 ≤ toRat x → (FLOORI x : Int) = ⌊toRat x⌋

/-- R11: `clamp01`: below 0 gives +0.0, above 1 gives 1.0, and everything else, a NaN and -0 among it, is returned as it
is. -/
def Obligations.ClampReturnsTheFraction : Prop :=
  ∀ x : Binary32,
    (flt x 0x00000000#32 = true → clamp01 x = 0x00000000#32) ∧
    (flt x 0x00000000#32 = false → fgt x 0x3F800000#32 = true → clamp01 x = 0x3F800000#32) ∧
    (flt x 0x00000000#32 = false → fgt x 0x3F800000#32 = false → clamp01 x = x) ∧
    (isFinite x = true → (flt x 0x00000000#32 = true ↔ toRat x < 0) ∧ (fgt x 0x3F800000#32 = true ↔ 1 < toRat x)) ∧
    (isNaN x = true → clamp01 x = x) ∧
    (isFinite x = true → 0 ≤ toRat x → toRat x ≤ 1 → clamp01 x = x) ∧
    clamp01 0x80000000#32 = 0x80000000#32

/-- R12: `emod(a, m)` is the unique r with 0 <= r < m and a - r divisible by m. -/
def Obligations.EmodIsTheUniqueRemainder : Prop :=
  ∀ a m : Int, 0 < m →
    (0 ≤ emod a m ∧ emod a m < m ∧ m ∣ a - emod a m) ∧
      (∀ r, 0 ≤ r → r < m → m ∣ a - r → r = emod a m) ∧ emod (-1) 8 = 7 ∧ emod (-8) 8 = 0 ∧ emod 17 8 = 1

/-- R7: `TWO_PI` is the binary32 value nearest to 2π, 13176795 * 2^-21, above the real 2π by about 1.75e-7. -/
def Obligations.TwoPiIsTheNearest : Prop :=
  TWO_PI = 0x40C90FDB#32 ∧ toRat TWO_PI = 13176795 / 2 ^ 21 ∧
    (∀ c : Binary32, |((toRat TWO_PI : ℚ) : ℝ) - 2 * Real.pi| ≤ |((toRat c : ℚ) : ℝ) - 2 * Real.pi|) ∧
    (1.74e-7 : ℝ) < ((toRat TWO_PI : ℚ) : ℝ) - 2 * Real.pi ∧
    ((toRat TWO_PI : ℚ) : ℝ) - 2 * Real.pi < (1.76e-7 : ℝ)

/-! ### Invariants and whole runs -/

/-- THE INVARIANT OF THE STATE, under any legal parameters: from every state that meets it, reached by a run or not, a
step leads to a state that meets it. The buffer keeps its canonical form and holds nothing at or above L, the registers
keep their legal values (R20, R23, R24, R32, R33), the cursors keep theirs (R39), and every response is one of R79
and R80. -/
def Obligations.StepKeepsInvariant : Prop :=
  ∀ (p : Params) (s t : State), Legal p → Inv p s → stepWith p s = .next t → Inv p t

/-- The state after reset meets the invariant. The registers the spec leaves unspecified there (R41) stand at the model's
own values (log entry 1), and the invariant asks nothing of them before INIT. -/
def Obligations.ResetMeetsInvariant : Prop := ∀ p : Params, Inv p State.reset

/-- R117, R57, R181: the core never faults: from every state that meets the invariant, whatever the host does, a run of
any length goes on. -/
def Obligations.NoRunFaults : Prop :=
  ∀ (p : Params) (n : Nat) (s : State), Legal p → Inv p s → SafeFor p n s

/-- R155, R42, R156: a command that is answered with an error has changed nothing but `errSticky` and the response. -/
def Obligations.RejectedCommandChangesNothing : Prop :=
  ∀ (p : Params) (s t : State) (w : CommandWord) (r : ResponseWord),
    runWordWith p w s = .next t → t.rsp = some r → responseStatus r ≠ 0x0#4 →
      t = { s with errSticky := true, rsp := some r } ∧ responseData r = 0x00000000#32

/-- R21, R22: `initialized` becomes 1 by an accepted INIT and by nothing else, `errSticky` by a rejected command and by
nothing else, and no command clears either. -/
def Obligations.FlagsRecordWhatHappened : Prop :=
  ∀ (p : Params) (s t : State) (w : CommandWord) (r : ResponseWord),
    runWordWith p w s = .next t → t.rsp = some r →
      (t.errSticky = true ↔ s.errSticky = true ∨ responseStatus r ≠ 0x0#4) ∧
      (t.initialized = true ↔
        s.initialized = true ∨ (responseStatus r = 0x0#4 ∧ ∃ rate, decode w = .ok (.init rate)))

/-- R119: for a phase and an increment in [0, TWO_PI) the sum is at most 2 pred(TWO_PI), and where it wraps the
subtraction is exact and leaves the phase in [0, TWO_PI - 2 ulp]. -/
def Obligations.WrapIsExact : Prop :=
  ∀ (d d' : NanDraw) (phase inc : Binary32), PhaseInRange phase → PhaseInRange inc →
    let s := fadd d phase inc
    isFinite s = true ∧ 0 ≤ toRat s ∧ toRat s ≤ 2 * toRat 0x40C90FDA#32 ∧
      (fge s TWO_PI = true →
        isFinite (fsub d' s TWO_PI) = true ∧
        toRat (fsub d' s TWO_PI) = toRat s - toRat TWO_PI ∧
        0 ≤ toRat (fsub d' s TWO_PI) ∧
        toRat (fsub d' s TWO_PI) ≤ toRat TWO_PI - 2 * (1 / 2 ^ 21))

/-- R40 (a), (b): a phase in [0, TWO_PI) stays there through a PROCESS whose increment is in [0, TWO_PI): the carrier's,
and with sync off the modulator's. -/
def Obligations.PhasesStayInRange : Prop :=
  ∀ (p : Params) (s t : State), s.initialized = true → execWith p .process s = .next t →
    (PhaseInRange s.carrierPhase → PhaseInRange (carrierIncrement p s) → PhaseInRange t.carrierPhase) ∧
    (s.syncEnabled = false → PhaseInRange s.modulatorPhase → PhaseInRange (modulatorIncrement p s) →
      PhaseInRange t.modulatorPhase)

/-- R40 (a), the source's phase-wrap property: after an accepted INIT with any legal rate of at least 111 samples per second
(for a lower one the default increment may reach `TWO_PI`), the carrier phase is in [0, TWO_PI) after every one of n PROCESS commands. -/
def Obligations.DefaultRunKeepsCarrierInRange : Prop :=
  ∀ (p : Params) (rate : Binary32) (n : Nat), Legal p → initOperandLegal p.bufMax rate = true →
    111 ≤ toRat rate →
      ∃ t, processTimes p n (State.booted p rate) = .next t ∧ PhaseInRange t.carrierPhase

/-- R121: while the carrier phase is finite and every buffer entry is in [-1, 1], so is every entry afterwards, and the
output is in [-1, 1] without the carrier and in [-2, 2] with it. -/
def Obligations.OutputStaysInRange : Prop :=
  ∀ (p : Params) (s t : State) (r : ResponseWord), Legal p → Inv p s → s.initialized = true →
    (∀ i, UnitSample (s.buffer.read i)) → execWith p .process s = .next t →
    isFinite t.carrierPhase = true → t.rsp = some r →
      (∀ i, UnitSample (t.buffer.read i)) ∧ isFinite (responseData r) = true ∧
      (s.includeCarrier = false → -1 ≤ toRat (responseData r) ∧ toRat (responseData r) ≤ 1) ∧
      (s.includeCarrier = true → -2 ≤ toRat (responseData r) ∧ toRat (responseData r) ≤ 2)

/-- R62, R39: the buffer is a delay line, whatever commands and moves come. In every initialised state, reached or not, in
which it is one of a list of samples, it is one of the list that the step leaves, under any parameters: a PROCESS appends its
carrier sample, an accepted INIT starts with the empty list, and setters, rejected words, deliveries and waiting keep the
list. From an uninitialised state only an accepted INIT makes the core initialised, and its buffer is one of the empty list. -/
def Obligations.BufferIsADelayLine : Prop :=
  ∀ (p : Params) (s t : State) (h : List Binary32), stepWith p s = .next t → t.initialized = true →
    (s.initialized = true → DelayLine h s → DelayLine (samplesAfterStep p s h) t) ∧
    (s.initialized = false → DelayLine [] t)

/-- R62, R111: in every initialised state whose buffer is a delay line, with the carrier included or not, PROCESS outputs
the sample its read offset modulo L selects: for 1 the carrier sample of exactly L commands earlier, for 0 of L - 1, for
every other d of d - 1, and +0.0 where there is none yet. -/
def Obligations.DefaultOffsetIsOneSecondOfDelay : Prop :=
  ∀ (p : Params) (s t : State) (h : List Binary32), s.initialized = true → DelayLine h s →
    execWith p .process s = .next t →
      t.rsp = some (0x0#4 ++
        mix p s (sampleAgo h (delayOf (emod (readOffset p s) s.bufLen).toNat s.bufLen))) ∧
      (emod (readOffset p s) s.bufLen = 1 → s.includeCarrier = false →
        t.rsp = some (0x0#4 ++ if s.bufLen ≤ h.length then h.getD (h.length - s.bufLen) 0x00000000#32
          else 0x00000000#32))
end

