-- ==== Sys2Proof/Laws/Float.lean ====
section
/-! SUPPORT. The fields and the value of a binary32 pattern. -/

namespace Sys2Proof.Machine

open Sys2Proof.Config (NanBits NanDraw)

/-! ### Fields as arithmetic on the pattern's number -/

theorem signBit_eq (x : Binary32) : signBit x = decide (2 ^ 31 ≤ x.toNat) := by
  simp [signBit, BitVec.msb_eq_decide]

theorem expField_eq (x : Binary32) : expField x = x.toNat / 2 ^ 23 % 2 ^ 8 := by
  simp [expField, BitVec.extractLsb'_toNat, Nat.shiftRight_eq_div_pow]

theorem fracField_eq (x : Binary32) : fracField x = x.toNat % 2 ^ 23 := by
  simp [fracField]

theorem magField_eq (x : Binary32) : magField x = x.toNat % 2 ^ 31 := by
  simp [magField]

theorem magField_lt (x : Binary32) : magField x < 2 ^ 31 := by
  rw [magField_eq]; omega

theorem fracField_lt (x : Binary32) : fracField x < 2 ^ 23 := by
  rw [fracField_eq]; omega

theorem expField_of_mag (x : Binary32) : expField x = magField x / 2 ^ 23 := by
  rw [expField_eq, magField_eq]; have := x.isLt; omega

theorem fracField_of_mag (x : Binary32) : fracField x = magField x % 2 ^ 23 := by
  rw [fracField_eq, magField_eq]; omega

theorem expField_lt (x : Binary32) : expField x < 256 := by
  rw [expField_eq]; omega

theorem pack_toNat (s : Bool) (m : Nat) (h : m < 2 ^ 31) :
    (pack s m).toNat = m + if s then 2 ^ 31 else 0 := by
  rw [pack, BitVec.toNat_ofNat, Nat.mod_eq_of_lt]
  cases s <;> simp <;> omega

theorem signBit_pack (s : Bool) (m : Nat) (h : m < 2 ^ 31) : signBit (pack s m) = s := by
  rw [signBit_eq, pack_toNat s m h]; cases s
  · simp; omega
  · simp

theorem magField_pack (s : Bool) (m : Nat) (h : m < 2 ^ 31) : magField (pack s m) = m := by
  rw [magField_eq, pack_toNat s m h]; cases s <;> simp <;> omega

/-- A pattern is its sign and its magnitude bits. -/
theorem pack_fields (x : Binary32) : pack (signBit x) (magField x) = x := by
  apply BitVec.eq_of_toNat_eq
  rw [pack_toNat _ _ (magField_lt x), signBit_eq, magField_eq]
  have := x.isLt
  by_cases h : 2 ^ 31 ≤ x.toNat
  · rw [decide_eq_true h, if_pos rfl]; omega
  · rw [decide_eq_false h, if_neg Bool.false_ne_true]; omega

theorem eq_of_fields {x y : Binary32} (hs : signBit x = signBit y) (hm : magField x = magField y) :
    x = y := by
  rw [← pack_fields x, ← pack_fields y, hs, hm]

/-! ### Classes by the magnitude bits -/

theorem isFinite_iff (x : Binary32) : isFinite x = true ↔ magField x < infinityMag := by
  have h := magField_lt x
  simp only [isFinite, expField_of_mag, infinityMag, bne_iff_ne, ne_eq]
  omega

theorem isInf_iff (x : Binary32) : isInf x = true ↔ magField x = infinityMag := by
  have h := magField_lt x
  simp only [isInf, expField_of_mag, fracField_of_mag, infinityMag, Bool.and_eq_true, beq_iff_eq]
  omega

theorem isNaN_iff (x : Binary32) : isNaN x = true ↔ infinityMag < magField x := by
  have h := magField_lt x
  simp only [isNaN, expField_of_mag, fracField_of_mag, infinityMag, Bool.and_eq_true, beq_iff_eq,
    bne_iff_ne, ne_eq]
  omega

theorem not_isNaN_of_finite {x : Binary32} (h : isFinite x = true) : isNaN x = false := by
  rw [isFinite_iff] at h
  rw [← Bool.not_eq_true, isNaN_iff]; omega

theorem not_isInf_of_finite {x : Binary32} (h : isFinite x = true) : isInf x = false := by
  rw [isFinite_iff] at h
  rw [← Bool.not_eq_true, isInf_iff]; omega

theorem finite_of_not {x : Binary32} (hn : isNaN x = false) (hi : isInf x = false) :
    isFinite x = true := by
  rw [← Bool.not_eq_true, isNaN_iff] at hn
  rw [← Bool.not_eq_true, isInf_iff] at hi
  rw [isFinite_iff]; omega

theorem nanOf_mag (b : NanBits) : infinityMag + (b.2.val + 1) < 2 ^ 31 := by
  have := b.2.isLt; simp only [infinityMag]; omega

theorem isNaN_nanOf (b : NanBits) : isNaN (nanOf b) = true := by
  rw [isNaN_iff, nanOf, magField_pack _ _ (nanOf_mag b)]; omega

/-! ### Values by the magnitude bits -/

/-- The value of magnitude bits, the exponent unbounded above. -/
def magVal (m : Nat) : ℚ :=
  if m / 2 ^ 23 = 0 then (m % 2 ^ 23 : Nat) * 2 ^ (-149 : Int)
  else (m % 2 ^ 23 + 2 ^ 23 : Nat) * 2 ^ ((m / 2 ^ 23 : Nat) - 150 : Int)

theorem significand_value (x : Binary32) :
    (significand x : ℚ) * 2 ^ ulpExp x = magVal (magField x) := by
  simp only [significand, ulpExp, magVal, expField_of_mag, fracField_of_mag]
  split <;> rfl

theorem toRat_eq (x : Binary32) :
    toRat x = if signBit x then -magVal (magField x) else magVal (magField x) := by
  rw [← significand_value, toRat, signedSig]
  split <;> push_cast <;> ring

theorem magVal_nonneg (m : Nat) : 0 ≤ magVal m := by
  rw [magVal]; split <;> positivity

@[simp] theorem magVal_zero : magVal 0 = 0 := by simp [magVal]

/-- The next magnitude is one unit in the last place larger. -/
theorem magVal_lt_succ (m : Nat) : magVal m < magVal (m + 1) := by
  have two0 : (2 : ℚ) ≠ 0 := by norm_num
  rcases Nat.lt_or_ge (m % 2 ^ 23 + 1) (2 ^ 23) with h | h
  · have h1 : (m + 1) / 2 ^ 23 = m / 2 ^ 23 := by omega
    have h2 : (m + 1) % 2 ^ 23 = m % 2 ^ 23 + 1 := by omega
    simp only [magVal, h1, h2]
    split
    · have : (0 : ℚ) < 2 ^ (-149 : Int) := by positivity
      push_cast; nlinarith
    · have : (0 : ℚ) < 2 ^ ((m / 2 ^ 23 : Nat) - 150 : Int) := by positivity
      exact mul_lt_mul_of_pos_right (by exact_mod_cast (by omega)) this
  · have h1 : (m + 1) / 2 ^ 23 = m / 2 ^ 23 + 1 := by omega
    have h2 : (m + 1) % 2 ^ 23 = 0 := by omega
    have h3 : m % 2 ^ 23 = 2 ^ 23 - 1 := by omega
    simp only [magVal, h1, h2, h3]
    split
    · rename_i h0
      rw [if_neg (by omega), h0]
      have : (0 : ℚ) < 2 ^ (-149 : Int) := by positivity
      norm_num
    · rw [if_neg (by omega)]
      have e : (((m / 2 ^ 23 + 1 : Nat) : Int) - 150) = ((m / 2 ^ 23 : Nat) - 150 : Int) + 1 := by
        push_cast; ring
      rw [e, zpow_add₀ two0]
      have : (0 : ℚ) < 2 ^ ((m / 2 ^ 23 : Nat) - 150 : Int) := by positivity
      generalize (2 : ℚ) ^ ((m / 2 ^ 23 : Nat) - 150 : Int) = P at this ⊢
      norm_num
      linarith

theorem magVal_strictMono : StrictMono magVal := strictMono_nat_of_lt_succ magVal_lt_succ

theorem magVal_le {a b : Nat} : magVal a ≤ magVal b ↔ a ≤ b := magVal_strictMono.le_iff_le

theorem magVal_lt {a b : Nat} : magVal a < magVal b ↔ a < b := magVal_strictMono.lt_iff_lt

theorem magVal_eq_zero {m : Nat} : magVal m = 0 ↔ m = 0 := by
  rw [← magVal_zero]; exact magVal_strictMono.injective.eq_iff

theorem significand_eq_zero {x : Binary32} : significand x = 0 ↔ magField x = 0 := by
  simp only [significand, expField_of_mag, fracField_of_mag]
  split <;> omega

/-! ### The order of the values is the order of the keys -/

theorem toRat_le_iff (a b : Binary32) : toRat a ≤ toRat b ↔ orderKey a ≤ orderKey b := by
  have ha := magVal_nonneg (magField a)
  have hb := magVal_nonneg (magField b)
  simp only [toRat_eq, orderKey]
  cases signBit a <;> cases signBit b <;> simp only [Bool.false_eq_true, if_true, if_false]
  · rw [magVal_le]; omega
  · constructor
    · intro h
      have h1 : magVal (magField a) = 0 := by linarith
      have h2 : magVal (magField b) = 0 := by linarith
      rw [magVal_eq_zero] at h1 h2; omega
    · intro h
      have h1 : magField a = 0 := by omega
      have h2 : magField b = 0 := by omega
      simp [h1, h2]
  · constructor
    · intro _; omega
    · intro _; linarith
  · rw [neg_le_neg_iff, magVal_le]; omega

theorem toRat_lt_iff (a b : Binary32) : toRat a < toRat b ↔ orderKey a < orderKey b := by
  rw [← not_le, ← not_le, toRat_le_iff]

theorem fge_of_finite {a b : Binary32} (ha : isFinite a = true) (hb : isFinite b = true) :
    fge a b = decide (toRat b ≤ toRat a) := by
  simp [fge, not_isNaN_of_finite ha, not_isNaN_of_finite hb, toRat_le_iff]

theorem flt_of_finite {a b : Binary32} (ha : isFinite a = true) (hb : isFinite b = true) :
    flt a b = decide (toRat a < toRat b) := by
  simp [flt, not_isNaN_of_finite ha, not_isNaN_of_finite hb, toRat_lt_iff]

theorem fgt_of_finite {a b : Binary32} (ha : isFinite a = true) (hb : isFinite b = true) :
    fgt a b = decide (toRat b < toRat a) := by
  simp [fgt, not_isNaN_of_finite ha, not_isNaN_of_finite hb, toRat_lt_iff]

/-! ### Signs -/

theorem signBit_negate (x : Binary32) : signBit (negate x) = !signBit x :=
  signBit_pack _ _ (magField_lt x)

theorem magField_negate (x : Binary32) : magField (negate x) = magField x :=
  magField_pack _ _ (magField_lt x)

theorem isFinite_negate (x : Binary32) : isFinite (negate x) = isFinite x := by
  rw [Bool.eq_iff_iff, isFinite_iff, isFinite_iff, magField_negate]

theorem isNaN_negate (x : Binary32) : isNaN (negate x) = isNaN x := by
  rw [Bool.eq_iff_iff, isNaN_iff, isNaN_iff, magField_negate]

theorem isInf_negate (x : Binary32) : isInf (negate x) = isInf x := by
  rw [Bool.eq_iff_iff, isInf_iff, isInf_iff, magField_negate]

theorem toRat_negate (x : Binary32) : toRat (negate x) = -toRat x := by
  rw [toRat_eq, toRat_eq, signBit_negate, magField_negate]
  cases signBit x <;> simp

end Sys2Proof.Machine
end

