-- ==== Sys2Proof/Laws/Rounding.lean ====
section
/-! SUPPORT. The one rounding: its result is the nearest pattern, an even one on a tie, hence it is monotone and leaves
representable values alone. -/

namespace Sys2Proof.Machine

/-- The rational number n / d * 2^e that is rounded. -/
def ratioVal (n d : Nat) (e : Int) : ℚ := (n : ℚ) / d * 2 ^ e

theorem two_pow_pos (e : Int) : (0 : ℚ) < 2 ^ e := by positivity

theorem zpow_split (e : Int) : (2 : ℚ) ^ e = (2 ^ e.toNat : Nat) / (2 ^ (-e).toNat : Nat) := by
  rcases le_total 0 e with h | h
  · obtain ⟨k, rfl⟩ := Int.eq_ofNat_of_zero_le h
    simp
  · obtain ⟨k, hk⟩ := Int.eq_ofNat_of_zero_le (Int.neg_nonneg_of_nonpos h)
    obtain rfl : e = -(k : Int) := by omega
    simp

/-! ### Nearest integer -/

/-- The rounded quotient is the floor where the remainder is at most half, and the next integer where it is at least
half, an exact half going to the even one. -/
theorem divNearestEven_cases (n d : Nat) :
    (divNearestEven n d = n / d ∧ 2 * (n % d) ≤ d ∧ (2 * (n % d) = d → n / d % 2 = 0)) ∨
      (divNearestEven n d = n / d + 1 ∧ d ≤ 2 * (n % d) ∧ (2 * (n % d) = d → n / d % 2 = 1)) := by
  simp only [divNearestEven]
  generalize n / d = q
  generalize n % d = r
  split
  · omega
  · split
    · omega
    · omega

/-- No integer is nearer to n / d, and an integer equally near is another only if the result is even. -/
theorem divNearestEven_nearest (n d : Nat) (hd : 0 < d) (j : Nat) :
    |(d : Int) * divNearestEven n d - n| ≤ |(d : Int) * j - n| ∧
      (|(d : Int) * divNearestEven n d - n| = |(d : Int) * j - n| → j ≠ divNearestEven n d →
        divNearestEven n d % 2 = 0) := by
  have hn : (d : Int) * (n / d : Nat) + (n % d : Nat) = n := by exact_mod_cast Nat.div_add_mod n d
  have hr : n % d < d := Nat.mod_lt n hd
  have cases := divNearestEven_cases n d
  generalize n / d = q at *
  generalize n % d = r at *
  generalize divNearestEven n d = k at *
  have below : j ≤ q → (d : Int) * j ≤ d * q ∧ (j ≠ q → (d : Int) * j ≤ d * q - d) := by
    intro h
    have h1 : (j : Int) ≤ q := by exact_mod_cast h
    refine ⟨by nlinarith, fun hne => ?_⟩
    have : (j : Int) + 1 ≤ q := by omega
    nlinarith
  have above : q + 1 ≤ j → (d : Int) * q + d ≤ d * j ∧ (j ≠ q + 1 → (d : Int) * q + 2 * d ≤ d * j) := by
    intro h
    have h1 : (q : Int) + 1 ≤ j := by exact_mod_cast h
    refine ⟨by nlinarith, fun hne => ?_⟩
    have : (q : Int) + 2 ≤ j := by omega
    nlinarith
  rcases cases with ⟨rfl, hle, htie⟩ | ⟨rfl, hle, htie⟩
  · rw [abs_of_nonpos (show (d : Int) * k - n ≤ 0 by omega)]
    rcases Nat.lt_or_ge k j with h | h
    · obtain ⟨h1, -⟩ := above h
      rw [abs_of_nonneg (show (0 : Int) ≤ d * j - n by omega)]
      omega
    · obtain ⟨h1, h2⟩ := below h
      rw [abs_of_nonpos (show (d : Int) * j - n ≤ 0 by omega)]
      refine ⟨by omega, fun _ hne => ?_⟩
      have := h2 hne
      omega
  · have hk : (d : Int) * (q + 1 : Nat) = d * q + d := by push_cast; ring
    rw [hk, abs_of_nonneg (show (0 : Int) ≤ d * q + d - n by omega)]
    rcases Nat.lt_or_ge q j with h | h
    · obtain ⟨h1, h2⟩ := above h
      rw [abs_of_nonneg (show (0 : Int) ≤ d * j - n by omega)]
      refine ⟨by omega, fun _ hne => ?_⟩
      have := h2 hne
      omega
    · obtain ⟨h1, -⟩ := below h
      rw [abs_of_nonpos (show (d : Int) * j - n ≤ 0 by omega)]
      omega

/-! ### The binade -/

theorem log2_bounds (n : Nat) (h : n ≠ 0) : 2 ^ Nat.log2 n ≤ n ∧ n < 2 ^ (Nat.log2 n + 1) :=
  ⟨Nat.log2_self_le h, Nat.lt_log2_self⟩

theorem ratio_pos {n d : Nat} (hn : 0 < n) (hd : 0 < d) : (0 : ℚ) < (n : ℚ) / d := by positivity

/-- The test of `floorLog2`: 2^l is not above n / d. -/
theorem pow_le_ratio_iff (n d : Nat) (hd : 0 < d) (l : Int) :
    (2 : ℚ) ^ l ≤ (n : ℚ) / d ↔ d * 2 ^ l.toNat ≤ n * 2 ^ (-l).toNat := by
  have h1 : (0 : ℚ) < d := by exact_mod_cast hd
  have h2 : (0 : ℚ) < (2 ^ (-l).toNat : Nat) := by positivity
  rw [zpow_split, div_le_div_iff₀ h2 h1]
  constructor
  · intro h
    have : 2 ^ l.toNat * d ≤ n * 2 ^ (-l).toNat := by exact_mod_cast h
    linarith
  · intro h
    have : 2 ^ l.toNat * d ≤ n * 2 ^ (-l).toNat := by linarith
    exact_mod_cast this

theorem floorLog2_spec (n d : Nat) (hn : 0 < n) (hd : 0 < d) :
    (2 : ℚ) ^ floorLog2 n d ≤ (n : ℚ) / d ∧ (n : ℚ) / d < 2 ^ (floorLog2 n d + 1) := by
  have two0 : (2 : ℚ) ≠ 0 := by norm_num
  have hd' : (0 : ℚ) < d := by exact_mod_cast hd
  obtain ⟨n1, n2⟩ := log2_bounds n hn.ne'
  obtain ⟨d1, d2⟩ := log2_bounds d hd.ne'
  have n1' : (2 : ℚ) ^ (Nat.log2 n : Int) ≤ n := by rw [zpow_natCast]; exact_mod_cast n1
  have n2' : (n : ℚ) < 2 ^ ((Nat.log2 n : Int) + 1) := by
    rw [← Nat.cast_succ, zpow_natCast]; exact_mod_cast n2
  have d1' : (2 : ℚ) ^ (Nat.log2 d : Int) ≤ d := by rw [zpow_natCast]; exact_mod_cast d1
  have d2' : (d : ℚ) < 2 ^ ((Nat.log2 d : Int) + 1) := by
    rw [← Nat.cast_succ, zpow_natCast]; exact_mod_cast d2
  have up : (n : ℚ) / d < 2 ^ (((Nat.log2 n : Int) - Nat.log2 d) + 1) := by
    rw [div_lt_iff₀ hd']
    calc (n : ℚ) < 2 ^ ((Nat.log2 n : Int) + 1) := n2'
      _ = 2 ^ (((Nat.log2 n : Int) - Nat.log2 d) + 1) * 2 ^ (Nat.log2 d : Int) := by
        rw [← zpow_add₀ two0]; congr 1; ring
      _ ≤ _ := mul_le_mul_of_nonneg_left d1' (two_pow_pos _).le
  have down : (2 : ℚ) ^ (((Nat.log2 n : Int) - Nat.log2 d) - 1) ≤ (n : ℚ) / d := by
    rw [le_div_iff₀ hd']
    calc (2 : ℚ) ^ (((Nat.log2 n : Int) - Nat.log2 d) - 1) * d
        ≤ 2 ^ (((Nat.log2 n : Int) - Nat.log2 d) - 1) * 2 ^ ((Nat.log2 d : Int) + 1) :=
          mul_le_mul_of_nonneg_left d2'.le (two_pow_pos _).le
      _ = 2 ^ (Nat.log2 n : Int) := by rw [← zpow_add₀ two0]; congr 1; ring
      _ ≤ n := n1'
  simp only [floorLog2]
  split
  · rename_i h
    exact ⟨(pow_le_ratio_iff n d hd _).mpr h, up⟩
  · rename_i h
    rw [sub_add_cancel]
    exact ⟨down, not_le.mp (fun hh => h ((pow_le_ratio_iff n d hd _).mp hh))⟩

/-! ### The rounded magnitude -/

/-- The value of magnitude bits built from an exponent's share and a significand of at most 2^24. -/
theorem magVal_build (c k : Nat) (hk : k ≤ 2 ^ 24) (hc : c = 0 ∨ 2 ^ 23 ≤ k) :
    magVal (c * 2 ^ 23 + k) = k * 2 ^ ((c : Int) - 149) := by
  have two0 : (2 : ℚ) ≠ 0 := by norm_num
  rcases Nat.lt_or_ge k (2 ^ 23) with h | h
  · obtain rfl : c = 0 := by omega
    have h1 : (0 * 2 ^ 23 + k) / 2 ^ 23 = 0 := by omega
    have h2 : (0 * 2 ^ 23 + k) % 2 ^ 23 = k := by omega
    simp only [magVal, h1, h2]
    rw [if_pos trivial]; norm_num
  · rcases Nat.lt_or_ge k (2 ^ 24) with h' | h'
    · have h1 : (c * 2 ^ 23 + k) / 2 ^ 23 = c + 1 := by omega
      have h2 : (c * 2 ^ 23 + k) % 2 ^ 23 + 2 ^ 23 = k := by omega
      simp only [magVal, h1, h2]
      rw [if_neg (by omega)]
      congr 2; push_cast; ring
    · obtain rfl : k = 2 ^ 24 := by omega
      have h1 : (c * 2 ^ 23 + 2 ^ 24) / 2 ^ 23 = c + 2 := by omega
      have h2 : (c * 2 ^ 23 + 2 ^ 24) % 2 ^ 23 + 2 ^ 23 = 2 ^ 23 := by omega
      simp only [magVal, h1, h2]
      rw [if_neg (by omega)]
      have e : ((c + 2 : Nat) : Int) - 150 = ((c : Int) - 149) + 1 := by push_cast; ring
      rw [e, zpow_add₀ two0]; push_cast; ring

/-- A magnitude is an integer number of last-place units of every binade it reaches. -/
theorem magVal_multiple (m c : Nat) (h : c * 2 ^ 23 + 2 ^ 23 ≤ m ∨ c = 0) :
    ∃ j : Nat, magVal m = j * 2 ^ ((c : Int) - 149) := by
  have two0 : (2 : ℚ) ≠ 0 := by norm_num
  by_cases hm : m / 2 ^ 23 = 0
  · obtain rfl : c = 0 := by omega
    exact ⟨m % 2 ^ 23, by rw [magVal, if_pos hm]; norm_num⟩
  · refine ⟨(m % 2 ^ 23 + 2 ^ 23) * 2 ^ (m / 2 ^ 23 - 1 - c), ?_⟩
    have hc : c + 1 ≤ m / 2 ^ 23 := by omega
    have e : ((m / 2 ^ 23 : Nat) : Int) - 150
        = ((m / 2 ^ 23 - 1 - c : Nat) : Int) + ((c : Int) - 149) := by omega
    rw [magVal, if_neg hm, e, zpow_add₀ two0, zpow_natCast]
    push_cast; ring

/-- What the rounding computes, as real numbers: with u the unit of the last place kept, the value in units, w, is
rounded to the nearest integer k, and the result is k units. -/
theorem roundMag_shape (n d : Nat) (e : Int) (hn : 0 < n) (hd : 0 < d) :
    ∃ (c k : Nat), roundExp n d e = (c : Int) - 149 ∧ roundMag n d e = c * 2 ^ 23 + k ∧
      k ≤ 2 ^ 24 ∧ (c = 0 ∨ 2 ^ 23 ≤ k) ∧
      (c = 0 ∨ (2 ^ 23 : Nat) * (2 : ℚ) ^ ((c : Int) - 149) ≤ ratioVal n d e) ∧
      magVal (roundMag n d e) = k * 2 ^ ((c : Int) - 149) ∧
      ∀ j : Nat, |(k : ℚ) * 2 ^ ((c : Int) - 149) - ratioVal n d e|
          ≤ |(j : ℚ) * 2 ^ ((c : Int) - 149) - ratioVal n d e| ∧
        (|(k : ℚ) * 2 ^ ((c : Int) - 149) - ratioVal n d e|
          = |(j : ℚ) * 2 ^ ((c : Int) - 149) - ratioVal n d e| → j ≠ k → k % 2 = 0) := by
  have two0 : (2 : ℚ) ≠ 0 := by norm_num
  obtain ⟨lo, hi⟩ := floorLog2_spec n d hn hd
  have hq : -149 ≤ roundExp n d e := le_max_right _ _
  have hq' : floorLog2 n d + e - 23 ≤ roundExp n d e := le_max_left _ _
  have hq'' : roundExp n d e = -149 ∨ roundExp n d e = floorLog2 n d + e - 23 := by
    simp only [roundExp]; omega
  have hm : roundMag n d e = (roundExp n d e + 149).toNat * 2 ^ 23
      + divNearestEven (n * 2 ^ (e - roundExp n d e).toNat) (d * 2 ^ (roundExp n d e - e).toNat) := by
    simp only [roundMag]; rw [if_neg hn.ne']
  generalize roundExp n d e = q at *
  obtain ⟨c, hc⟩ := Int.eq_ofNat_of_zero_le (show (0 : Int) ≤ q + 149 by omega)
  obtain rfl : q = (c : Int) - 149 := by omega
  rw [hc, Int.toNat_natCast] at hm
  set q : Int := (c : Int) - 149 with hqdef
  set N := n * 2 ^ (e - q).toNat with hN
  set D := d * 2 ^ (q - e).toNat with hD
  have hDpos : 0 < D := by rw [hD]; positivity
  have hDq : (0 : ℚ) < D := by exact_mod_cast hDpos
  have hdq : (0 : ℚ) < d := by exact_mod_cast hd
  have hpos := two_pow_pos q
  -- the value in units of the last place
  have hw : ratioVal n d e = (N : ℚ) / D * 2 ^ q := by
    have : (2 : ℚ) ^ e = 2 ^ (e - q) * 2 ^ q := by rw [← zpow_add₀ two0]; congr 1; ring
    rw [ratioVal, this, zpow_split (e - q), hN, hD, show -(e - q) = q - e by ring]
    push_cast
    field_simp
  have key : ∀ j : Nat, |(j : ℚ) * 2 ^ q - ratioVal n d e|
      = |((((D : Int) * j - N : Int)) : ℚ)| / D * 2 ^ q := by
    intro j
    rw [hw, ← sub_mul, abs_mul, abs_of_pos hpos]
    congr 1
    rw [eq_div_iff hDq.ne', ← abs_of_pos hDq, ← abs_mul, abs_of_pos hDq]
    congr 1
    push_cast
    field_simp
  have near := divNearestEven_nearest N D hDpos
  set k := divNearestEven N D with hk
  have mono : ∀ a b : Int, (|(a : ℚ)| / D * 2 ^ q ≤ |(b : ℚ)| / D * 2 ^ q ↔ |a| ≤ |b|) := by
    intro a b
    rw [mul_le_mul_iff_left₀ hpos, div_le_div_iff_of_pos_right hDq]
    exact_mod_cast Iff.rfl
  have nearest : ∀ j : Nat, |(k : ℚ) * 2 ^ q - ratioVal n d e| ≤ |(j : ℚ) * 2 ^ q - ratioVal n d e| ∧
      (|(k : ℚ) * 2 ^ q - ratioVal n d e| = |(j : ℚ) * 2 ^ q - ratioVal n d e| → j ≠ k → k % 2 = 0) := by
    intro j
    rw [key, key]
    refine ⟨(mono _ _).mpr (near j).1, fun h hne => (near j).2 ?_ hne⟩
    exact le_antisymm ((mono _ _).mp h.le) ((mono _ _).mp h.ge)
  -- bounds on the value
  have hiq : ratioVal n d e < (2 ^ 24 : Nat) * 2 ^ q := by
    have : ((2 ^ 24 : Nat) : ℚ) * 2 ^ q = 2 ^ (q + 24) := by
      rw [zpow_add₀ two0, mul_comm]; norm_num
    rw [this]
    calc ratioVal n d e < 2 ^ (floorLog2 n d + 1) * 2 ^ e :=
          mul_lt_mul_of_pos_right hi (two_pow_pos e)
      _ = 2 ^ (floorLog2 n d + 1 + e) := by rw [zpow_add₀ two0 (_ + 1)]
      _ ≤ 2 ^ (q + 24) := zpow_le_zpow_right₀ (by norm_num) (by omega)
  have loq : c = 0 ∨ (2 ^ 23 : Nat) * (2 : ℚ) ^ q ≤ ratioVal n d e := by
    rcases hq'' with h | h
    · left; omega
    · right
      have : ((2 ^ 23 : Nat) : ℚ) * 2 ^ q = 2 ^ (q + 23) := by
        rw [zpow_add₀ two0, mul_comm]; norm_num
      rw [this]
      calc (2 : ℚ) ^ (q + 23) = 2 ^ floorLog2 n d * 2 ^ e := by
            rw [← zpow_add₀ two0]; congr 1; omega
        _ ≤ ratioVal n d e := mul_le_mul_of_nonneg_right lo (two_pow_pos e).le
  have hkhi : k ≤ 2 ^ 24 := by
    by_contra hcon
    have hcon' : 2 ^ 24 + 1 ≤ k := by omega
    have h1 := (nearest (2 ^ 24)).1
    have h2 : ((2 ^ 24 : Nat) : ℚ) * 2 ^ q < k * 2 ^ q :=
      mul_lt_mul_of_pos_right (by exact_mod_cast hcon') hpos
    rw [abs_of_pos (by linarith), abs_of_pos (by linarith)] at h1
    linarith
  have hklo : c = 0 ∨ 2 ^ 23 ≤ k := by
    refine loq.imp_right fun h => ?_
    by_contra hcon
    have hcon' : k + 1 ≤ 2 ^ 23 := by omega
    have h1 := (nearest (2 ^ 23)).1
    have h2 : (k : ℚ) * 2 ^ q < ((2 ^ 23 : Nat) : ℚ) * 2 ^ q :=
      mul_lt_mul_of_pos_right (by exact_mod_cast hcon') hpos
    rw [abs_of_nonpos (by linarith), abs_of_nonpos (by linarith)] at h1
    linarith
  exact ⟨c, k, rfl, hm, hkhi, hklo, loq, by rw [hm]; exact magVal_build c k hkhi hklo, nearest⟩

/-- ROUND TO NEAREST, TIES TO EVEN (R6): no magnitude is nearer to n / d * 2^e than the rounded one, and where another
is equally near the rounded one is even. -/
theorem roundMag_nearest (n d : Nat) (e : Int) (hd : 0 < d) (m : Nat) :
    |magVal (roundMag n d e) - ratioVal n d e| ≤ |magVal m - ratioVal n d e| ∧
      (|magVal (roundMag n d e) - ratioVal n d e| = |magVal m - ratioVal n d e| →
        m ≠ roundMag n d e → roundMag n d e % 2 = 0) := by
  rcases Nat.eq_zero_or_pos n with rfl | hn
  · have h0 : roundMag 0 d e = 0 := by simp [roundMag]
    have hv : ratioVal 0 d e = 0 := by simp [ratioVal]
    rw [h0, hv]; simp
  · obtain ⟨c, k, -, hm, hk, hck, hlow, hval, near⟩ := roundMag_shape n d e hn hd
    rw [hval]
    by_cases hbig : c * 2 ^ 23 + 2 ^ 23 ≤ m ∨ c = 0
    · obtain ⟨j, hj⟩ := magVal_multiple m c hbig
      rw [hj]
      refine ⟨(near j).1, fun h hne => ?_⟩
      have hjk : j ≠ k := by
        rintro rfl
        exact hne (magVal_strictMono.injective (by rw [hj, hval]))
      have := (near j).2 h hjk
      rw [hm]; omega
    · obtain ⟨h1, h2⟩ := not_or.mp hbig
      have hlow' := hlow.resolve_left h2
      have hsmall : magVal m < (2 ^ 23 : Nat) * 2 ^ ((c : Int) - 149) := by
        rw [← magVal_build c (2 ^ 23) (by norm_num) (Or.inr le_rfl), magVal_lt]; omega
      have hstrict : |(k : ℚ) * 2 ^ ((c : Int) - 149) - ratioVal n d e| < |magVal m - ratioVal n d e| := by
        refine lt_of_le_of_lt (near (2 ^ 23)).1 ?_
        rw [abs_of_nonpos (by linarith), abs_of_nonpos (by linarith)]
        linarith
      exact ⟨hstrict.le, fun h => absurd h hstrict.ne⟩

/-- A representable value is left alone. -/
theorem roundMag_of_eq (n d : Nat) (e : Int) (hd : 0 < d) (m : Nat) (h : ratioVal n d e = magVal m) :
    roundMag n d e = m := by
  have := (roundMag_nearest n d e hd m).1
  rw [h, sub_self, abs_zero] at this
  exact magVal_strictMono.injective (by linarith [abs_nonpos_iff.mp this])

/-- Rounding is monotone. -/
theorem roundMag_mono (n d n' d' : Nat) (e e' : Int) (hd : 0 < d) (hd' : 0 < d')
    (h : ratioVal n d e ≤ ratioVal n' d' e') : roundMag n d e ≤ roundMag n' d' e' := by
  by_contra hcon
  have hlt : roundMag n' d' e' < roundMag n d e := by omega
  have near := roundMag_nearest n d e hd
  have near' := roundMag_nearest n' d' e' hd'
  generalize roundMag n d e = M at *
  generalize roundMag n' d' e' = M' at *
  have hv := magVal_lt.mpr hlt
  have a1 := (near M').1
  have a2 := (near' M).1
  have b1 : magVal M' + magVal M ≤ 2 * ratioVal n d e := by
    by_contra hb
    rw [not_le] at hb
    rw [abs_of_pos (show 0 < magVal M - ratioVal n d e by linarith)] at a1
    rcases abs_cases (magVal M' - ratioVal n d e) with ⟨h1, _⟩ | ⟨h1, _⟩ <;> linarith
  have b2 : 2 * ratioVal n' d' e' ≤ magVal M' + magVal M := by
    by_contra hb
    rw [not_le] at hb
    rw [abs_of_neg (show magVal M' - ratioVal n' d' e' < 0 by linarith)] at a2
    rcases abs_cases (magVal M - ratioVal n' d' e') with ⟨h1, _⟩ | ⟨h1, _⟩ <;> linarith
  have hmid : 2 * ratioVal n d e = magVal M' + magVal M := by linarith
  have hmid' : 2 * ratioVal n' d' e' = magVal M' + magVal M := by linarith
  have hM : M % 2 = 0 := (near M').2
    (by rw [abs_of_pos (by linarith), abs_of_neg (by linarith)]; linarith) (by omega)
  have hM' : M' % 2 = 0 := (near' M).2
    (by rw [abs_of_neg (by linarith), abs_of_pos (by linarith)]; linarith) (by omega)
  have hbetween := (near (M' + 1)).1
  have c1 := magVal_lt_succ M'
  have c2 : magVal (M' + 1) < magVal M := magVal_lt.mpr (by omega)
  rw [abs_of_pos (show 0 < magVal M - ratioVal n d e by linarith)] at hbetween
  rcases abs_cases (magVal (M' + 1) - ratioVal n d e) with ⟨h1, _⟩ | ⟨h1, _⟩ <;> linarith

/-- Rounding does not pass a representable bound above. -/
theorem roundMag_le_of_le (n d : Nat) (e : Int) (hd : 0 < d) (m : Nat) (h : ratioVal n d e ≤ magVal m) :
    roundMag n d e ≤ m := by
  by_contra hcon
  have hlt : m < roundMag n d e := by omega
  have hv := magVal_lt.mpr hlt
  have := (roundMag_nearest n d e hd m).1
  rw [abs_of_pos (by linarith)] at this
  rcases abs_cases (magVal m - ratioVal n d e) with ⟨h1, _⟩ | ⟨h1, _⟩
  · have h2 : ratioVal n d e = magVal m := by linarith
    have := roundMag_of_eq n d e hd m h2
    omega
  · linarith

/-- Rounding does not pass a representable bound below. -/
theorem le_roundMag_of_le (n d : Nat) (e : Int) (hd : 0 < d) (m : Nat) (h : magVal m ≤ ratioVal n d e) :
    m ≤ roundMag n d e := by
  by_contra hcon
  have hlt : roundMag n d e < m := by omega
  have hv := magVal_lt.mpr hlt
  have := (roundMag_nearest n d e hd m).1
  rw [abs_of_neg (by linarith)] at this
  rcases abs_cases (magVal m - ratioVal n d e) with ⟨h1, _⟩ | ⟨h1, _⟩
  · have h2 : ratioVal n d e = magVal m := by linarith
    have := roundMag_of_eq n d e hd m h2
    omega
  · linarith

end Sys2Proof.Machine
end

