-- ==== Sys2Proof/Laws/Arith.lean ====
section
/-! SUPPORT. What each arithmetic primitive answers: one specification a primitive, stated over the exact real result. -/

namespace Sys2Proof.Machine

open Sys2Proof.Config (NanBits NanDraw)

/-- The signed number that is rounded. -/
def signedRatio (s : Bool) (n d : Nat) (e : Int) : ℚ := if s then -ratioVal n d e else ratioVal n d e

/-- x is the exact result v rounded once. -/
def Rounds (v : ℚ) (x : Binary32) : Prop :=
  ∃ s n d e, 0 < d ∧ x = roundRatio s n d e ∧ v = signedRatio s n d e

theorem ratioVal_nonneg (n d : Nat) (e : Int) : 0 ≤ ratioVal n d e := by
  unfold ratioVal; positivity

theorem ratioVal_eq_zero {n d : Nat} {e : Int} (hd : 0 < d) : ratioVal n d e = 0 ↔ n = 0 := by
  have : (d : ℚ) ≠ 0 := by exact_mod_cast hd.ne'
  have h2 : (2 : ℚ) ^ e ≠ 0 := (two_pow_pos e).ne'
  simp [ratioVal, this, h2]

theorem min_inf_lt (m : Nat) : min m infinityMag < 2 ^ 31 := by
  simp only [infinityMag]; omega

theorem signBit_roundRatio (s n d e) : signBit (roundRatio s n d e) = s :=
  signBit_pack _ _ (min_inf_lt _)

theorem magField_roundRatio (s n d e) :
    magField (roundRatio s n d e) = min (roundMag n d e) infinityMag :=
  magField_pack _ _ (min_inf_lt _)

theorem roundMag_zero (d : Nat) (e : Int) : roundMag 0 d e = 0 := by simp [roundMag]

theorem zeroOf_eq (s : Bool) : zeroOf s = roundRatio s 0 1 0 := by
  simp [zeroOf, roundRatio, roundMag_zero, infinityMag]

namespace Rounds

variable {v : ℚ} {x : Binary32}

theorem not_nan (h : Rounds v x) : isNaN x = false := by
  obtain ⟨s, n, d, e, -, rfl, -⟩ := h
  rw [← Bool.not_eq_true, isNaN_iff, magField_roundRatio]; omega

/-- A finite value not below the exact result is not below the rounded one. -/
theorem key_le (h : Rounds v x) {c : Binary32} (hc : isFinite c = true) (hv : v ≤ toRat c) :
    orderKey x ≤ orderKey c := by
  obtain ⟨s, n, d, e, hd, rfl, rfl⟩ := h
  rw [isFinite_iff] at hc
  have h0 := ratioVal_nonneg n d e
  have hm := magVal_nonneg (magField c)
  rw [toRat_eq, signedRatio] at hv
  simp only [orderKey, signBit_roundRatio, magField_roundRatio]
  cases s <;> cases hs : signBit c <;> simp only [hs, Bool.false_eq_true, if_true, if_false] at hv ⊢
  · have := roundMag_le_of_le n d e hd _ hv
    omega
  · have hn : ratioVal n d e = 0 := by linarith
    have hz : magVal (magField c) = 0 := by linarith
    rw [ratioVal_eq_zero hd] at hn
    rw [magVal_eq_zero] at hz
    subst hn
    rw [roundMag_zero]; omega
  · omega
  · have := le_roundMag_of_le n d e hd (magField c) (by linarith)
    omega

/-- A finite value not above the exact result is not above the rounded one. -/
theorem le_key (h : Rounds v x) {c : Binary32} (hc : isFinite c = true) (hv : toRat c ≤ v) :
    orderKey c ≤ orderKey x := by
  obtain ⟨s, n, d, e, hd, rfl, rfl⟩ := h
  rw [isFinite_iff] at hc
  have h0 := ratioVal_nonneg n d e
  have hm := magVal_nonneg (magField c)
  rw [toRat_eq, signedRatio] at hv
  simp only [orderKey, signBit_roundRatio, magField_roundRatio]
  cases s <;> cases hs : signBit c <;> simp only [hs, Bool.false_eq_true, if_true, if_false] at hv ⊢
  · have := le_roundMag_of_le n d e hd (magField c) hv
    omega
  · omega
  · have hn : ratioVal n d e = 0 := by linarith
    have hz : magVal (magField c) = 0 := by linarith
    rw [ratioVal_eq_zero hd] at hn
    rw [magVal_eq_zero] at hz
    subst hn
    rw [roundMag_zero]; omega
  · have := roundMag_le_of_le n d e hd (magField c) (by linarith)
    omega

end Rounds

/-- Between two finite values in the order, a pattern that is no NaN is finite. -/
theorem finite_of_between {a x b : Binary32} (ha : isFinite a = true) (hb : isFinite b = true)
    (h1 : orderKey a ≤ orderKey x) (h2 : orderKey x ≤ orderKey b) : isFinite x = true := by
  rw [isFinite_iff] at *
  simp only [orderKey] at h1 h2
  split at h1 <;> split at h1 <;> split at h2 <;> simp_all <;> omega

namespace Rounds

variable {v : ℚ} {x : Binary32}

/-- The rounded result lies between any two finite values the exact one lies between. -/
theorem between (h : Rounds v x) {a b : Binary32} (ha : isFinite a = true) (hb : isFinite b = true)
    (h1 : toRat a ≤ v) (h2 : v ≤ toRat b) :
    isFinite x = true ∧ toRat a ≤ toRat x ∧ toRat x ≤ toRat b := by
  have k1 := h.le_key ha h1
  have k2 := h.key_le hb h2
  exact ⟨finite_of_between ha hb k1 k2, (toRat_le_iff _ _).mpr k1, (toRat_le_iff _ _).mpr k2⟩

/-- A representable exact result is the result. -/
theorem exact (h : Rounds v x) {c : Binary32} (hc : isFinite c = true) (hv : v = toRat c) :
    isFinite x = true ∧ toRat x = toRat c := by
  obtain ⟨h1, h2, h3⟩ := h.between hc hc hv.ge hv.le
  exact ⟨h1, le_antisymm h3 h2⟩

/-- The sign of the rounded result is that of the exact one, where the exact one has a sign. -/
theorem sign_of_pos (h : Rounds v x) (hv : 0 < v) : signBit x = false := by
  obtain ⟨s, n, d, e, hd, rfl, rfl⟩ := h
  rw [signBit_roundRatio]
  cases s
  · rfl
  · have := ratioVal_nonneg n d e
    simp only [signedRatio, if_true] at hv
    linarith

theorem sign_of_neg (h : Rounds v x) (hv : v < 0) : signBit x = true := by
  obtain ⟨s, n, d, e, hd, rfl, rfl⟩ := h
  rw [signBit_roundRatio]
  cases s
  · have := ratioVal_nonneg n d e
    simp [signedRatio] at hv
    linarith
  · rfl

theorem abs_ratio {s n d e} : |signedRatio s n d e| = ratioVal n d e := by
  unfold signedRatio
  split
  · rw [abs_neg, abs_of_nonneg (ratioVal_nonneg n d e)]
  · rw [abs_of_nonneg (ratioVal_nonneg n d e)]

theorem magVal_infinityMag : magVal infinityMag = 2 ^ 128 := by
  norm_num [magVal, infinityMag]

theorem magVal_maxFinite : magVal (infinityMag - 1) = 2 ^ 128 - 2 ^ 104 := by
  norm_num [magVal, infinityMag]

/-- Overflow: the result is an infinity exactly from the midpoint above the largest finite value on. -/
theorem isInf_iff_abs (h : Rounds v x) : isInf x = true ↔ 2 ^ 128 - 2 ^ 103 ≤ |v| := by
  obtain ⟨s, n, d, e, hd, rfl, rfl⟩ := h
  rw [isInf_iff, magField_roundRatio, abs_ratio]
  have near := roundMag_nearest n d e hd
  have hmid : (2 : ℚ) ^ 128 - 2 ^ 103 = (magVal infinityMag + magVal (infinityMag - 1)) / 2 := by
    rw [magVal_infinityMag, magVal_maxFinite]; norm_num
  obtain ⟨i, hi, heven⟩ : ∃ i, infinityMag = i + 1 ∧ i % 2 = 1 := ⟨infinityMag - 1, rfl, rfl⟩
  rw [hmid, hi, Nat.add_sub_cancel]
  have hlt : magVal i < magVal (i + 1) := magVal_lt_succ i
  generalize ratioVal n d e = v at *
  generalize roundMag n d e = M at *
  constructor
  · intro hM
    by_contra hcon
    rw [not_le] at hcon
    have hle : magVal (i + 1) ≤ magVal M := magVal_le.mpr (by omega)
    have := (near i).1
    rw [abs_of_pos (by linarith)] at this
    rcases abs_cases (magVal i - v) with ⟨h1, _⟩ | ⟨h1, _⟩ <;> linarith
  · intro hv
    by_contra hcon
    have hMi : M ≤ i := by omega
    have hle : magVal M ≤ magVal i := magVal_le.mpr hMi
    have hn := near (i + 1)
    rw [abs_of_neg (show magVal M - v < 0 by linarith)] at hn
    rcases abs_cases (magVal (i + 1) - v) with ⟨h1, _⟩ | ⟨h1, _⟩
    · have heq : magVal M = magVal i := by linarith [hn.1]
      have hM : M = i := magVal_strictMono.injective heq
      have := hn.2 (by rw [h1]; linarith) (by omega)
      omega
    · linarith [hn.1]

/-- NEAREST: no finite value is nearer to the exact result than a finite rounded one. -/
theorem nearest (h : Rounds v x) (hx : isFinite x = true) {c : Binary32} :
    |toRat x - v| ≤ |toRat c - v| ∧
      (|toRat x - v| = |toRat c - v| → toRat c ≠ toRat x → x.toNat % 2 = 0) := by
  obtain ⟨s, n, d, e, hd, rfl, rfl⟩ := h
  have hxm : magField (roundRatio s n d e) = roundMag n d e := by
    rw [isFinite_iff] at hx
    rw [magField_roundRatio] at hx ⊢
    omega
  have hpar : (roundRatio s n d e).toNat % 2 = roundMag n d e % 2 := by
    rw [← hxm, magField_eq]; omega
  have hx' : |toRat (roundRatio s n d e) - signedRatio s n d e|
      = |magVal (roundMag n d e) - ratioVal n d e| := by
    rw [toRat_eq, signBit_roundRatio, hxm, signedRatio]
    cases s
    · simp only [Bool.false_eq_true, if_false]
    · simp only [if_true]; rw [neg_sub_neg, abs_sub_comm]
  have h0 := ratioVal_nonneg n d e
  have hm0 := magVal_nonneg (magField c)
  have hr0 := magVal_nonneg (roundMag n d e)
  rw [hx', hpar]
  by_cases hsc : signBit c = s
  · have hc : |toRat c - signedRatio s n d e| = |magVal (magField c) - ratioVal n d e| := by
      rw [toRat_eq, hsc, signedRatio]
      cases s
      · simp only [Bool.false_eq_true, if_false]
      · simp only [if_true]; rw [neg_sub_neg, abs_sub_comm]
    rw [hc]
    refine ⟨(roundMag_nearest n d e hd _).1, fun he hne => (roundMag_nearest n d e hd _).2 he ?_⟩
    intro hh
    apply hne
    rw [toRat_eq, toRat_eq, hsc, signBit_roundRatio, hxm, hh]
  · have hc : |toRat c - signedRatio s n d e| = magVal (magField c) + ratioVal n d e := by
      rw [toRat_eq, signedRatio]
      cases s <;> cases hs : signBit c <;> simp_all only [Bool.false_eq_true, if_true, if_false, not_true_eq_false]
      · rw [abs_of_nonpos (by linarith)]; ring
      · rw [abs_of_nonneg (by linarith)]; ring
    rw [hc]
    have h1 := roundMag_nearest n d e hd 0
    rw [magVal_zero, zero_sub, abs_neg, abs_of_nonneg h0] at h1
    refine ⟨by linarith [h1.1], fun he hne => ?_⟩
    have hz : magVal (magField c) = 0 := by linarith [h1.1]
    refine h1.2 (by linarith) ?_
    intro hh
    apply hne
    have hz' := magVal_eq_zero.mp hz
    rw [toRat_eq, toRat_eq, hxm, ← hh, hz']
    simp

end Rounds

/-! ### The primitives on finite operands -/

theorem alignedSum_value (a b : Binary32) :
    (alignedSum a b : ℚ) * 2 ^ min (ulpExp a) (ulpExp b) = toRat a + toRat b := by
  have two0 : (2 : ℚ) ≠ 0 := by norm_num
  have shift : ∀ x : Int, min (ulpExp a) (ulpExp b) ≤ x →
      (2 : ℚ) ^ (x - min (ulpExp a) (ulpExp b)).toNat * 2 ^ min (ulpExp a) (ulpExp b) = 2 ^ x := by
    intro x hx
    rw [← zpow_natCast, Int.toNat_of_nonneg (by omega), ← zpow_add₀ two0]
    congr 1; ring
  simp only [alignedSum, toRat]
  push_cast
  rw [add_mul, mul_assoc, mul_assoc, shift _ (min_le_left _ _), shift _ (min_le_right _ _)]

theorem addFinite_rounds (a b : Binary32) : Rounds (toRat a + toRat b) (addFinite a b) := by
  rw [← alignedSum_value]
  simp only [addFinite]
  split
  · rename_i h
    refine ⟨_, 0, 1, 0, one_pos, zeroOf_eq _, ?_⟩
    simp [h, signedRatio, ratioVal]
  · refine ⟨_, _, 1, _, one_pos, rfl, ?_⟩
    simp only [signedRatio, ratioVal, Nat.cast_one, div_one]
    rcases lt_or_ge (alignedSum a b) 0 with h | h
    · have hcast : ((alignedSum a b).natAbs : ℚ) = -(alignedSum a b : ℚ) := by
        rw [Nat.cast_natAbs, abs_of_neg h]; push_cast; ring
      simp [h, hcast]
    · have hcast : ((alignedSum a b).natAbs : ℚ) = (alignedSum a b : ℚ) := by
        rw [Nat.cast_natAbs, abs_of_nonneg h]
      simp [not_lt.mpr h, hcast]

/-- `fadd` of finite operands: the exact sum rounded once. -/
theorem fadd_finite (draw : NanDraw) {a b : Binary32} (ha : isFinite a = true) (hb : isFinite b = true) :
    fadd draw a b = addFinite a b := by
  simp [fadd, not_isNaN_of_finite ha, not_isNaN_of_finite hb, not_isInf_of_finite ha, not_isInf_of_finite hb]

theorem fadd_rounds (draw : NanDraw) {a b : Binary32} (ha : isFinite a = true) (hb : isFinite b = true) :
    Rounds (toRat a + toRat b) (fadd draw a b) := by
  rw [fadd_finite draw ha hb]; exact addFinite_rounds a b

/-- `fsub` of finite operands: the exact difference rounded once. -/
theorem fsub_rounds (draw : NanDraw) {a b : Binary32} (ha : isFinite a = true) (hb : isFinite b = true) :
    Rounds (toRat a - toRat b) (fsub draw a b) := by
  have := fadd_rounds draw ha (b := negate b) (by rw [isFinite_negate, hb])
  rwa [toRat_negate, ← sub_eq_add_neg] at this

theorem abs_toRat (x : Binary32) : ratioVal (significand x) 1 (ulpExp x) = magVal (magField x) := by
  rw [← significand_value, ratioVal]; simp

/-- `fmul` of finite operands: the exact product rounded once. -/
theorem fmul_rounds (draw : NanDraw) {a b : Binary32} (ha : isFinite a = true) (hb : isFinite b = true) :
    Rounds (toRat a * toRat b) (fmul draw a b) := by
  refine ⟨signBit a != signBit b, significand a * significand b, 1, ulpExp a + ulpExp b, one_pos, ?_, ?_⟩
  · simp [fmul, not_isNaN_of_finite ha, not_isNaN_of_finite hb, not_isInf_of_finite ha,
      not_isInf_of_finite hb]
  · rw [toRat_eq, toRat_eq, ← significand_value, ← significand_value, signedRatio, ratioVal,
      zpow_add₀ (by norm_num : (2 : ℚ) ≠ 0)]
    push_cast
    cases signBit a <;> cases signBit b <;> simp <;> ring

/-- `fdiv` of finite operands, the divisor not zero: the exact quotient rounded once. -/
theorem fdiv_rounds (draw : NanDraw) {a b : Binary32} (ha : isFinite a = true) (hb : isFinite b = true)
    (h0 : toRat b ≠ 0) : Rounds (toRat a / toRat b) (fdiv draw a b) := by
  have hs : significand b ≠ 0 := by
    intro h
    apply h0
    rw [toRat_eq, significand_eq_zero.mp h]; simp
  refine ⟨signBit a != signBit b, significand a, significand b, ulpExp a - ulpExp b, Nat.pos_of_ne_zero hs, ?_, ?_⟩
  · simp [fdiv, not_isNaN_of_finite ha, not_isNaN_of_finite hb, not_isInf_of_finite ha,
      not_isInf_of_finite hb, hs]
  · have hb' : (significand b : ℚ) ≠ 0 := by exact_mod_cast hs
    have hp := (two_pow_pos (ulpExp b)).ne'
    rw [toRat_eq, toRat_eq, ← significand_value, ← significand_value, signedRatio, ratioVal,
      zpow_sub₀ (by norm_num : (2 : ℚ) ≠ 0)]
    cases signBit a <;> cases signBit b <;> simp <;> field_simp

/-! ### NaN operands -/

theorem fadd_nan (draw : NanDraw) {a b : Binary32} (h : isNaN a = true ∨ isNaN b = true) :
    fadd draw a b = nanOf (draw a b) := by
  simp [fadd, h]

theorem fmul_nan (draw : NanDraw) {a b : Binary32} (h : isNaN a = true ∨ isNaN b = true) :
    fmul draw a b = nanOf (draw a b) := by
  simp [fmul, h]

theorem fdiv_nan (draw : NanDraw) {a b : Binary32} (h : isNaN a = true ∨ isNaN b = true) :
    fdiv draw a b = nanOf (draw a b) := by
  simp [fdiv, h]

/-- Comparisons with a NaN are false (R6). -/
theorem fge_nan {a b : Binary32} (h : isNaN a = true ∨ isNaN b = true) : fge a b = false := by
  rcases h with h | h <;> simp [fge, h]

/-! ### Conversions -/

theorem toRat_nonneg_of_sign {x : Binary32} (h : signBit x = false) : 0 ≤ toRat x := by
  rw [toRat_eq, h]; exact magVal_nonneg _

/-- The magnitude's floor. -/
theorem truncMag_floor (x : Binary32) : (truncMag x : Int) = ⌊magVal (magField x)⌋ := by
  rw [← significand_value, zpow_split]
  have h : (significand x : ℚ) * ((2 ^ (ulpExp x).toNat : Nat) / (2 ^ (-ulpExp x).toNat : Nat))
      = ((significand x * 2 ^ (ulpExp x).toNat : Nat) : ℚ) / (2 ^ (-ulpExp x).toNat : Nat) := by
    push_cast; ring
  rw [h, truncMag, Rat.floor_natCast_div_natCast]
  rfl

theorem FTOI_nan {x : Binary32} (h : isNaN x = true) : FTOI x = 0 := by simp [FTOI, h]

theorem FTOI_range (x : Binary32) : -2147483648 ≤ FTOI x ∧ FTOI x ≤ 2147483647 := by
  simp only [FTOI]
  split
  · omega
  · split <;> omega

/-- `FTOI` is the real value truncated toward zero and saturated (R9). -/
theorem FTOI_value {x : Binary32} (h : isNaN x = false) :
    FTOI x = max (-2147483648) (min 2147483647 (if 0 ≤ toRat x then ⌊toRat x⌋ else ⌈toRat x⌉)) := by
  have hm := magVal_nonneg (magField x)
  have hf := truncMag_floor x
  have hpos : 0 ≤ ⌊magVal (magField x)⌋ := Int.floor_nonneg.mpr hm
  simp only [FTOI, h, Bool.false_eq_true, if_false, toRat_eq]
  cases hs : signBit x
  · simp only [Bool.false_eq_true, if_false, hm, if_true]
    omega
  · simp only [if_true]
    rw [Int.ceil_neg]
    split
    · rename_i h0
      have hz : magVal (magField x) = 0 := by linarith
      rw [hz] at hf ⊢
      simp at hf ⊢
      omega
    · omega

/-- `FTOI` of a value not below zero is not below zero. -/
theorem FTOI_nonneg {x : Binary32} (h : isNaN x = true ∨ 0 ≤ toRat x) : 0 ≤ FTOI x := by
  rcases h with h | h
  · rw [FTOI_nan h]
  · cases hn : isNaN x
    · rw [FTOI_value hn, if_pos h]
      have := Int.floor_nonneg.mpr h
      omega
    · rw [FTOI_nan hn]

/-- `FTOI` does not pass an integer bound. -/
theorem FTOI_le {x : Binary32} {n : Nat} (h : isNaN x = true ∨ toRat x ≤ n) : FTOI x ≤ n := by
  cases hn : isNaN x
  · rw [FTOI_value hn]
    have h' : toRat x ≤ n := h.resolve_left (by simp [hn])
    split
    · have : ⌊toRat x⌋ ≤ (n : Int) := by
        have := Int.floor_le_floor h'
        simpa using this
      omega
    · have : ⌈toRat x⌉ ≤ (n : Int) := Int.ceil_le.mpr (by exact_mod_cast h')
      omega
  · rw [FTOI_nan hn]; omega

theorem FLOORI_floor {x : Binary32} (h : 0 ≤ toRat x) : (FLOORI x : Int) = ⌊toRat x⌋ := by
  rw [FLOORI, truncMag_floor, toRat_eq] at *
  cases hs : signBit x
  · simp
  · rw [hs] at h
    simp only [if_true] at h ⊢
    have hz : magVal (magField x) = 0 := by linarith [magVal_nonneg (magField x)]
    rw [hz]; simp

/-- `ITOF` is exact up to 2^24 (R10). -/
theorem ITOF_exact {n : Nat} (h : n ≤ 2 ^ 24) : isFinite (ITOF n) = true ∧ toRat (ITOF n) = n := by
  have hr : Rounds (n : ℚ) (ITOF n) := ⟨false, n, 1, 0, one_pos, rfl, by simp [signedRatio, ratioVal]⟩
  rcases Nat.eq_zero_or_pos n with rfl | hn
  · have : ITOF 0 = 0#32 := by decide
    rw [this]
    exact ⟨by decide, by simp [toRat_eq, signBit_eq, magField_eq]⟩
  · -- the magnitude that holds n
    have hl1 := Nat.log2_self_le hn.ne'
    have hl2 : n < 2 ^ (Nat.log2 n + 1) := Nat.lt_log2_self
    have hl : Nat.log2 n ≤ 24 := by
      by_contra hcon
      have : 2 ^ 25 ≤ 2 ^ Nat.log2 n := Nat.pow_le_pow_right (by norm_num) (by omega)
      omega
    have hsmall : ratioVal n 1 0 = n := by simp [ratioVal]
    have hle : roundMag n 1 0 ≤ 151 * 2 ^ 23 := by
      apply roundMag_le_of_le _ _ _ one_pos
      rw [hsmall]
      have : magVal (151 * 2 ^ 23) = 2 ^ 24 := by norm_num [magVal]
      rw [this]; exact_mod_cast h
    have hm : roundMag n 1 0 < infinityMag := by simp only [infinityMag]; omega
    have hfin : isFinite (ITOF n) = true := by
      rw [isFinite_iff, ITOF, magField_roundRatio]; omega
    refine ⟨hfin, ?_⟩
    obtain ⟨j, hj⟩ : ∃ m, ratioVal n 1 0 = magVal m := by
      rw [hsmall]
      rcases Nat.lt_or_ge n (2 ^ 24) with h24 | h24
      · refine ⟨(Nat.log2 n + 126) * 2 ^ 23 + n * 2 ^ (23 - Nat.log2 n), ?_⟩
        have hle23 : Nat.log2 n ≤ 23 := by
          by_contra hcon
          have : 2 ^ 24 ≤ 2 ^ Nat.log2 n := Nat.pow_le_pow_right (by norm_num) (by omega)
          omega
        have hp : 2 ^ Nat.log2 n * 2 ^ (23 - Nat.log2 n) = 2 ^ 23 := by
          rw [← Nat.pow_add]; congr 1; omega
        have hlo : 2 ^ 23 ≤ n * 2 ^ (23 - Nat.log2 n) := by
          rw [← hp]; exact Nat.mul_le_mul_right _ hl1
        have hhi : n * 2 ^ (23 - Nat.log2 n) ≤ 2 ^ 24 := by
          have : n * 2 ^ (23 - Nat.log2 n) ≤ 2 ^ (Nat.log2 n + 1) * 2 ^ (23 - Nat.log2 n) :=
            Nat.mul_le_mul_right _ hl2.le
          rw [← Nat.pow_add] at this
          have e : Nat.log2 n + 1 + (23 - Nat.log2 n) = 24 := by omega
          rwa [e] at this
        rw [magVal_build _ _ hhi (Or.inr hlo)]
        push_cast
        rw [mul_assoc, ← zpow_natCast, ← zpow_add₀ (by norm_num : (2 : ℚ) ≠ 0)]
        have e : ((23 - Nat.log2 n : Nat) : Int) + ((Nat.log2 n : Int) + 126 - 149) = 0 := by omega
        rw [e]; simp
      · refine ⟨151 * 2 ^ 23, ?_⟩
        obtain rfl : n = 2 ^ 24 := by omega
        norm_num [magVal]
    have hmag := roundMag_of_eq n 1 0 one_pos j hj
    rw [toRat_eq, ITOF, signBit_roundRatio, magField_roundRatio, hmag]
    rw [hmag] at hm
    simp only [Bool.false_eq_true, if_false]
    rw [min_eq_left hm.le, ← hj, hsmall]

/-! ### The clamp -/

theorem finite_plusZero : isFinite plusZero = true := by decide
theorem finite_one : isFinite one = true := by decide
theorem finite_two : isFinite two = true := by decide
theorem finite_quarter : isFinite quarter = true := by decide
theorem finite_TWO_PI : isFinite TWO_PI = true := by decide
theorem finite_hz110 : isFinite hz110 = true := by decide

@[simp] theorem toRat_plusZero : toRat plusZero = 0 := by
  simp [toRat_eq, signBit_eq, magField_eq, plusZero]

@[simp] theorem toRat_one : toRat one = 1 := by
  norm_num [toRat_eq, signBit_eq, magField_eq, one, magVal]

@[simp] theorem toRat_two : toRat two = 2 := by
  norm_num [toRat_eq, signBit_eq, magField_eq, two, magVal]

@[simp] theorem toRat_quarter : toRat quarter = 1 / 4 := by
  norm_num [toRat_eq, signBit_eq, magField_eq, quarter, magVal]

/-- `TWO_PI` is 13176795 * 2^-21 (R7). -/
theorem toRat_TWO_PI : toRat TWO_PI = 13176795 / 2 ^ 21 := by
  norm_num [toRat_eq, signBit_eq, magField_eq, TWO_PI, magVal]

/-- A clamped fraction is a NaN or a finite value in [0, 1] (R11). -/
theorem clamp01_range (x : Binary32) :
    (isNaN x = true ∧ clamp01 x = x) ∨
      (isNaN (clamp01 x) = false ∧ isFinite (clamp01 x) = true ∧ 0 ≤ toRat (clamp01 x) ∧ toRat (clamp01 x) ≤ 1) := by
  cases hn : isNaN x
  · right
    simp only [clamp01]
    split
    · exact ⟨by decide, finite_plusZero, by simp, by simp⟩
    · rename_i h0
      split
      · exact ⟨by decide, finite_one, by simp, by simp⟩
      · rename_i h1
        have z : isNaN plusZero = false := by decide
        have o : isNaN one = false := by decide
        simp only [flt, hn, z, Bool.not_false, Bool.true_and, decide_eq_true_eq, not_lt] at h0
        simp only [fgt, hn, o, Bool.not_false, Bool.true_and, decide_eq_true_eq, not_lt] at h1
        have hf := finite_of_between finite_plusZero finite_one h0 h1
        have a := (toRat_le_iff _ _).mpr h0
        have b := (toRat_le_iff _ _).mpr h1
        rw [toRat_plusZero] at a
        rw [toRat_one] at b
        exact ⟨hn, hf, a, b⟩
  · left
    exact ⟨rfl, by simp [clamp01, flt, fgt, hn]⟩

end Sys2Proof.Machine
end

