-- ==== Sys2Proof/Laws/Draws.lean ====
section
/-! SUPPORT. Where a NaN draw plays no part: on finite operands, and in a product that is truncated. -/

namespace Sys2Proof.Machine

open Sys2Proof.Config (NanDraw)

theorem fadd_draw (d d' : NanDraw) {a b : Binary32} (ha : isFinite a = true) (hb : isFinite b = true) :
    fadd d a b = fadd d' a b := by rw [fadd_finite d ha hb, fadd_finite d' ha hb]

theorem fsub_draw (d d' : NanDraw) {a b : Binary32} (ha : isFinite a = true) (hb : isFinite b = true) :
    fsub d a b = fsub d' a b := fadd_draw d d' ha (by rw [isFinite_negate, hb])

theorem fmul_draw (d d' : NanDraw) {a b : Binary32} (ha : isFinite a = true) (hb : isFinite b = true) :
    fmul d a b = fmul d' a b := by
  simp [fmul, not_isNaN_of_finite ha, not_isNaN_of_finite hb, not_isInf_of_finite ha, not_isInf_of_finite hb]

theorem fdiv_draw (d d' : NanDraw) {a b : Binary32} (ha : isFinite a = true) (hb : isFinite b = true)
    (h0 : significand b ≠ 0) : fdiv d a b = fdiv d' a b := by
  simp [fdiv, not_isNaN_of_finite ha, not_isNaN_of_finite hb, not_isInf_of_finite ha, not_isInf_of_finite hb, h0]

/-- A NaN product truncates to 0 whatever its bits, so a truncated product depends on no draw (R9). -/
theorem FTOI_fmul_draw (d d' : NanDraw) (a b : Binary32) : FTOI (fmul d a b) = FTOI (fmul d' a b) := by
  simp only [fmul]
  repeat' split
  all_goals first | rfl | rw [FTOI_nan (isNaN_nanOf _), FTOI_nan (isNaN_nanOf _)]

/-- A product of a clamped fraction and a length is a NaN, where the fraction is one, or lies in [0, L]. -/
theorem fraction_cases (d : NanDraw) (x : Binary32) {n : Nat} (h : n ≤ 2 ^ 24) :
    (isNaN x = true ∧ isNaN (fmul d (clamp01 x) (ITOF n)) = true) ∨
      (isNaN x = false ∧ isFinite (fmul d (clamp01 x) (ITOF n)) = true ∧
        0 ≤ toRat (fmul d (clamp01 x) (ITOF n)) ∧ toRat (fmul d (clamp01 x) (ITOF n)) ≤ n) := by
  obtain ⟨h1, h2⟩ := ITOF_exact h
  rcases clamp01_range x with ⟨hc, he⟩ | ⟨hc, c1, c2, c3⟩
  · exact .inl ⟨hc, by rw [fmul_nan _ (.inl (by rw [he]; exact hc))]; exact isNaN_nanOf _⟩
  · right
    have hx : isNaN x = false := by
      by_contra hn
      have hn : isNaN x = true := by simpa using hn
      have : clamp01 x = x := by simp [clamp01, flt, fgt, hn]
      rw [this, hn] at hc; cases hc
    have nn : (0 : ℚ) ≤ n := by positivity
    have := (fmul_rounds d c1 h1).between finite_plusZero h1 (by rw [h2]; simp; positivity) (by rw [h2]; nlinarith)
    exact ⟨hx, by simpa [h2] using this⟩

end Sys2Proof.Machine
end

