-- ==== Sys2Proof/Laws/Encoding.lean ====
section
/-! SUPPORT. The two fields of a command word: what each is of a word put together from them, and of a masked word. -/

namespace Sys2Proof

@[simp] theorem opcodeField_commandWord (op : BitVec 8) (arg : BitVec 32) : opcodeField (commandWord op arg) = op := by
  unfold opcodeField commandWord
  ext i hi
  rw [BitVec.getElem_extractLsb']
  refine (BitVec.getLsbD_append (x := op) (y := arg)).trans ?_
  rw [if_neg (by omega), Nat.add_sub_cancel_left]
  exact BitVec.getLsbD_eq_getElem hi

@[simp] theorem operandField_commandWord (op : BitVec 8) (arg : BitVec 32) : operandField (commandWord op arg) = arg := by
  unfold operandField commandWord
  ext i hi
  rw [BitVec.getElem_extractLsb', Nat.zero_add]
  refine (BitVec.getLsbD_append (x := op) (y := arg)).trans ?_
  rw [if_pos hi]
  exact BitVec.getLsbD_eq_getElem hi

/-- A word is its two fields: no bit of it lies outside them (30_encoding.md R70). -/
theorem commandWord_fields (w : CommandWord) : commandWord (opcodeField w) (operandField w) = w := by
  apply BitVec.eq_of_toNat_eq
  have h : (commandWord (opcodeField w) (operandField w)).toNat
      = (opcodeField w).toNat <<< 32 ||| (operandField w).toNat := BitVec.toNat_append ..
  rw [h, ← Nat.shiftLeft_add_eq_or_of_lt (operandField w).isLt]
  simp only [opcodeField, operandField, BitVec.extractLsb'_toNat, Nat.shiftLeft_eq, Nat.shiftRight_eq_div_pow]
  have := w.isLt
  omega

/-- Words with the same fields are the same word. -/
theorem word_ext {v w : CommandWord} (h1 : opcodeField v = opcodeField w) (h2 : operandField v = operandField w) :
    v = w := by rw [← commandWord_fields v, ← commandWord_fields w, h1, h2]

@[simp] theorem opcodeField_and (v w : CommandWord) : opcodeField (v &&& w) = opcodeField v &&& opcodeField w := by
  ext i hi; simp [opcodeField]

@[simp] theorem operandField_and (v w : CommandWord) : operandField (v &&& w) = operandField v &&& operandField w := by
  ext i hi; simp [operandField]

/-- A mask over the whole opcode field keeps it. -/
theorem opcode_mask (op : BitVec 8) : op &&& 0xFF#8 = op := by
  have h : (0xFF#8) = BitVec.allOnes 8 := by decide
  exact (congrArg (op &&& ·) h).trans BitVec.and_allOnes

/-- A word of format F, its operand masked out, is its opcode over zeros (R71, R74). -/
theorem commandWord_maskF (op : BitVec 8) (arg : BitVec 32) :
    commandWord op arg &&& 0xFF00000000#40 = commandWord op 0#32 := by
  apply word_ext
  · rw [opcodeField_and, opcodeField_commandWord, opcodeField_commandWord,
      show opcodeField 0xFF00000000#40 = 0xFF#8 by decide, opcode_mask]
  · rw [operandField_and, operandField_commandWord, operandField_commandWord,
      show operandField 0xFF00000000#40 = 0#32 by decide]
    simp

end Sys2Proof
end

