-- ==== Sys2Proof/Laws/Exact.lean ====
section
/-! SUPPORT. Which real numbers a binary32 pattern represents, and the bound a finite value keeps under the rounding. -/

namespace Sys2Proof.Machine

/-- Magnitude bits for k units of 2 to an exponent from that of the subnormals up. -/
theorem magVal_of_units (c : Nat) : ∀ k : Nat, k ≤ 2 ^ 24 →
    ∃ m, m ≤ c * 2 ^ 23 + 2 ^ 24 ∧ magVal m = k * 2 ^ ((c : Int) - 149) := by
  have two0 : (2 : ℚ) ≠ 0 := by norm_num
  induction c with
  | zero => intro k hk; exact ⟨0 * 2 ^ 23 + k, by omega, magVal_build 0 k hk (.inl rfl)⟩
  | succ c ih =>
    intro k hk
    rcases Nat.lt_or_ge k (2 ^ 23) with h | h
    · obtain ⟨m, hm, hv⟩ := ih (2 * k) (by omega)
      refine ⟨m, by rw [Nat.succ_mul]; exact hm.trans (by omega), ?_⟩
      have e : ((c + 1 : Nat) : Int) - 149 = ((c : Int) - 149) + 1 := by push_cast; ring
      rw [hv, e, zpow_add₀ two0]; push_cast; ring
    · exact ⟨(c + 1) * 2 ^ 23 + k, by omega, magVal_build (c + 1) k hk (.inr h)⟩

/-- Every integer of at most 24 bits times a power of two in the range of the exponents is a binary32 value. -/
theorem representable {k e : Int} (hk : |k| ≤ 2 ^ 24) (h0 : -149 ≤ e) (h1 : e ≤ 103) :
    ∃ c : Binary32, isFinite c = true ∧ toRat c = k * 2 ^ e := by
  obtain ⟨j, rfl⟩ : ∃ j : Nat, e = (j : Int) - 149 := ⟨(e + 149).toNat, by omega⟩
  obtain ⟨m, hm, hv⟩ := magVal_of_units j k.natAbs (by rw [Int.abs_eq_natAbs] at hk; omega)
  have hj : j ≤ 252 := by omega
  have hlt : m < 2 ^ 31 := by omega
  refine ⟨pack (decide (k < 0)) m, ?_, ?_⟩
  · rw [isFinite_iff, magField_pack _ _ hlt, infinityMag]; omega
  · rw [toRat_eq, signBit_pack _ _ hlt, magField_pack _ _ hlt, hv, ← neg_mul]
    by_cases hneg : k < 0
    · have : ((k.natAbs : Nat) : ℚ) = -(k : ℚ) := by
        rw [Nat.cast_natAbs, abs_of_neg hneg]; push_cast; rfl
      simp [hneg, this]
    · have : ((k.natAbs : Nat) : ℚ) = k := by
        rw [Nat.cast_natAbs, abs_of_nonneg (by omega)]
      simp [hneg, this]

/-- An exactly representable number is rounded to itself. -/
theorem Rounds.of_units {v : ℚ} {x : Binary32} (h : Rounds v x) {k e : Int} (hk : |k| ≤ 2 ^ 24) (h0 : -149 ≤ e)
    (h1 : e ≤ 103) (hv : v = k * 2 ^ e) : isFinite x = true ∧ toRat x = v := by
  obtain ⟨c, hc, hv'⟩ := representable hk h0 h1
  have := h.exact hc (hv.trans hv'.symm)
  exact ⟨this.1, this.2.trans (hv'.trans hv.symm)⟩

/-- A value of magnitude at least 2^(c - 126) is an integer number of units of 2^(c - 149). -/
theorem units_of_ge {x : Binary32} {c : Nat} (h : (2 : ℚ) ^ ((c : Int) - 126) ≤ |toRat x|) :
    ∃ j : Int, toRat x = j * 2 ^ ((c : Int) - 149) := by
  have two0 : (2 : ℚ) ≠ 0 := by norm_num
  have habs : |toRat x| = magVal (magField x) := by
    rw [toRat_eq]; split
    · rw [abs_neg, abs_of_nonneg (magVal_nonneg _)]
    · rw [abs_of_nonneg (magVal_nonneg _)]
  rw [habs] at h
  have hb := magVal_build c (2 ^ 23) (by norm_num) (.inr le_rfl)
  have e : ((c : Int) - 126) = 23 + ((c : Int) - 149) := by ring
  have hb' : magVal (c * 2 ^ 23 + 2 ^ 23) = (2 : ℚ) ^ ((c : Int) - 126) := by
    rw [hb, e, zpow_add₀ two0]; push_cast; norm_num
  rw [← hb', magVal_le] at h
  obtain ⟨j, hj⟩ := magVal_multiple (magField x) c (.inl h)
  rw [toRat_eq]
  split
  · exact ⟨-j, by rw [hj]; push_cast; ring⟩
  · exact ⟨j, by rw [hj]; push_cast; ring⟩

end Sys2Proof.Machine
end

