-- ==== Sys2Proof/Laws/State.lean ====
section
/-! SUPPORT. One lemma per field per update of the state, true by rfl, so that no proof unfolds a record update. -/

namespace Sys2Proof.Machine

open Sys2Proof.Config (Params)

/-! ### `initialized <- 1` -/

@[simp] theorem markInitialized_initialized (s : State) :
    (s.markInitialized).initialized = true := rfl
@[simp] theorem markInitialized_errSticky (s : State) :
    (s.markInitialized).errSticky = s.errSticky := rfl
@[simp] theorem markInitialized_sampleRate (s : State) :
    (s.markInitialized).sampleRate = s.sampleRate := rfl
@[simp] theorem markInitialized_bufLen (s : State) :
    (s.markInitialized).bufLen = s.bufLen := rfl
@[simp] theorem markInitialized_buffer (s : State) :
    (s.markInitialized).buffer = s.buffer := rfl
@[simp] theorem markInitialized_writeIndex (s : State) :
    (s.markInitialized).writeIndex = s.writeIndex := rfl
@[simp] theorem markInitialized_readIndex (s : State) :
    (s.markInitialized).readIndex = s.readIndex := rfl
@[simp] theorem markInitialized_carrierPhase (s : State) :
    (s.markInitialized).carrierPhase = s.carrierPhase := rfl
@[simp] theorem markInitialized_modulatorPhase (s : State) :
    (s.markInitialized).modulatorPhase = s.modulatorPhase := rfl
@[simp] theorem markInitialized_carrierFreqHz (s : State) :
    (s.markInitialized).carrierFreqHz = s.carrierFreqHz := rfl
@[simp] theorem markInitialized_modFreqHz (s : State) :
    (s.markInitialized).modFreqHz = s.modFreqHz := rfl
@[simp] theorem markInitialized_modRangeSamples (s : State) :
    (s.markInitialized).modRangeSamples = s.modRangeSamples := rfl
@[simp] theorem markInitialized_modOffsetSamples (s : State) :
    (s.markInitialized).modOffsetSamples = s.modOffsetSamples := rfl
@[simp] theorem markInitialized_syncEnabled (s : State) :
    (s.markInitialized).syncEnabled = s.syncEnabled := rfl
@[simp] theorem markInitialized_includeCarrier (s : State) :
    (s.markInitialized).includeCarrier = s.includeCarrier := rfl
@[simp] theorem markInitialized_rsp (s : State) :
    (s.markInitialized).rsp = s.rsp := rfl
@[simp] theorem markInitialized_host (s : State) :
    (s.markInitialized).host = s.host := rfl
@[simp] theorem markInitialized_delivered (s : State) :
    (s.markInitialized).delivered = s.delivered := rfl
@[simp] theorem markInitialized_draws (s : State) :
    (s.markInitialized).draws = s.draws := rfl

/-! ### `errSticky <- 1` -/

@[simp] theorem markRejected_initialized (s : State) :
    (s.markRejected).initialized = s.initialized := rfl
@[simp] theorem markRejected_errSticky (s : State) :
    (s.markRejected).errSticky = true := rfl
@[simp] theorem markRejected_sampleRate (s : State) :
    (s.markRejected).sampleRate = s.sampleRate := rfl
@[simp] theorem markRejected_bufLen (s : State) :
    (s.markRejected).bufLen = s.bufLen := rfl
@[simp] theorem markRejected_buffer (s : State) :
    (s.markRejected).buffer = s.buffer := rfl
@[simp] theorem markRejected_writeIndex (s : State) :
    (s.markRejected).writeIndex = s.writeIndex := rfl
@[simp] theorem markRejected_readIndex (s : State) :
    (s.markRejected).readIndex = s.readIndex := rfl
@[simp] theorem markRejected_carrierPhase (s : State) :
    (s.markRejected).carrierPhase = s.carrierPhase := rfl
@[simp] theorem markRejected_modulatorPhase (s : State) :
    (s.markRejected).modulatorPhase = s.modulatorPhase := rfl
@[simp] theorem markRejected_carrierFreqHz (s : State) :
    (s.markRejected).carrierFreqHz = s.carrierFreqHz := rfl
@[simp] theorem markRejected_modFreqHz (s : State) :
    (s.markRejected).modFreqHz = s.modFreqHz := rfl
@[simp] theorem markRejected_modRangeSamples (s : State) :
    (s.markRejected).modRangeSamples = s.modRangeSamples := rfl
@[simp] theorem markRejected_modOffsetSamples (s : State) :
    (s.markRejected).modOffsetSamples = s.modOffsetSamples := rfl
@[simp] theorem markRejected_syncEnabled (s : State) :
    (s.markRejected).syncEnabled = s.syncEnabled := rfl
@[simp] theorem markRejected_includeCarrier (s : State) :
    (s.markRejected).includeCarrier = s.includeCarrier := rfl
@[simp] theorem markRejected_rsp (s : State) :
    (s.markRejected).rsp = s.rsp := rfl
@[simp] theorem markRejected_host (s : State) :
    (s.markRejected).host = s.host := rfl
@[simp] theorem markRejected_delivered (s : State) :
    (s.markRejected).delivered = s.delivered := rfl
@[simp] theorem markRejected_draws (s : State) :
    (s.markRejected).draws = s.draws := rfl

/-! ### `respond` -/

@[simp] theorem respond_initialized (s : State) (st : Status) (d : BitVec 32) :
    (s.respond st d).initialized = s.initialized := rfl
@[simp] theorem respond_errSticky (s : State) (st : Status) (d : BitVec 32) :
    (s.respond st d).errSticky = s.errSticky := rfl
@[simp] theorem respond_sampleRate (s : State) (st : Status) (d : BitVec 32) :
    (s.respond st d).sampleRate = s.sampleRate := rfl
@[simp] theorem respond_bufLen (s : State) (st : Status) (d : BitVec 32) :
    (s.respond st d).bufLen = s.bufLen := rfl
@[simp] theorem respond_buffer (s : State) (st : Status) (d : BitVec 32) :
    (s.respond st d).buffer = s.buffer := rfl
@[simp] theorem respond_writeIndex (s : State) (st : Status) (d : BitVec 32) :
    (s.respond st d).writeIndex = s.writeIndex := rfl
@[simp] theorem respond_readIndex (s : State) (st : Status) (d : BitVec 32) :
    (s.respond st d).readIndex = s.readIndex := rfl
@[simp] theorem respond_carrierPhase (s : State) (st : Status) (d : BitVec 32) :
    (s.respond st d).carrierPhase = s.carrierPhase := rfl
@[simp] theorem respond_modulatorPhase (s : State) (st : Status) (d : BitVec 32) :
    (s.respond st d).modulatorPhase = s.modulatorPhase := rfl
@[simp] theorem respond_carrierFreqHz (s : State) (st : Status) (d : BitVec 32) :
    (s.respond st d).carrierFreqHz = s.carrierFreqHz := rfl
@[simp] theorem respond_modFreqHz (s : State) (st : Status) (d : BitVec 32) :
    (s.respond st d).modFreqHz = s.modFreqHz := rfl
@[simp] theorem respond_modRangeSamples (s : State) (st : Status) (d : BitVec 32) :
    (s.respond st d).modRangeSamples = s.modRangeSamples := rfl
@[simp] theorem respond_modOffsetSamples (s : State) (st : Status) (d : BitVec 32) :
    (s.respond st d).modOffsetSamples = s.modOffsetSamples := rfl
@[simp] theorem respond_syncEnabled (s : State) (st : Status) (d : BitVec 32) :
    (s.respond st d).syncEnabled = s.syncEnabled := rfl
@[simp] theorem respond_includeCarrier (s : State) (st : Status) (d : BitVec 32) :
    (s.respond st d).includeCarrier = s.includeCarrier := rfl
@[simp] theorem respond_rsp (s : State) (st : Status) (d : BitVec 32) :
    (s.respond st d).rsp = some (responseWord st d) := rfl
@[simp] theorem respond_host (s : State) (st : Status) (d : BitVec 32) :
    (s.respond st d).host = s.host := rfl
@[simp] theorem respond_delivered (s : State) (st : Status) (d : BitVec 32) :
    (s.respond st d).delivered = s.delivered := rfl
@[simp] theorem respond_draws (s : State) (st : Status) (d : BitVec 32) :
    (s.respond st d).draws = s.draws := rfl

/-! ### Hardware reset -/

@[simp] theorem hardwareReset_initialized (s : State) :
    (s.hardwareReset).initialized = false := rfl
@[simp] theorem hardwareReset_errSticky (s : State) :
    (s.hardwareReset).errSticky = false := rfl
@[simp] theorem hardwareReset_sampleRate (s : State) :
    (s.hardwareReset).sampleRate = 0#32 := rfl
@[simp] theorem hardwareReset_bufLen (s : State) :
    (s.hardwareReset).bufLen = 0 := rfl
@[simp] theorem hardwareReset_buffer (s : State) :
    (s.hardwareReset).buffer = ⟨[]⟩ := rfl
@[simp] theorem hardwareReset_writeIndex (s : State) :
    (s.hardwareReset).writeIndex = 0 := rfl
@[simp] theorem hardwareReset_readIndex (s : State) :
    (s.hardwareReset).readIndex = 0 := rfl
@[simp] theorem hardwareReset_carrierPhase (s : State) :
    (s.hardwareReset).carrierPhase = 0#32 := rfl
@[simp] theorem hardwareReset_modulatorPhase (s : State) :
    (s.hardwareReset).modulatorPhase = 0#32 := rfl
@[simp] theorem hardwareReset_carrierFreqHz (s : State) :
    (s.hardwareReset).carrierFreqHz = 0#32 := rfl
@[simp] theorem hardwareReset_modFreqHz (s : State) :
    (s.hardwareReset).modFreqHz = 0#32 := rfl
@[simp] theorem hardwareReset_modRangeSamples (s : State) :
    (s.hardwareReset).modRangeSamples = 0#32 := rfl
@[simp] theorem hardwareReset_modOffsetSamples (s : State) :
    (s.hardwareReset).modOffsetSamples = 0 := rfl
@[simp] theorem hardwareReset_syncEnabled (s : State) :
    (s.hardwareReset).syncEnabled = false := rfl
@[simp] theorem hardwareReset_includeCarrier (s : State) :
    (s.hardwareReset).includeCarrier = false := rfl
@[simp] theorem hardwareReset_rsp (s : State) :
    (s.hardwareReset).rsp = none := rfl
@[simp] theorem hardwareReset_host (s : State) :
    (s.hardwareReset).host = s.host := rfl
@[simp] theorem hardwareReset_delivered (s : State) :
    (s.hardwareReset).delivered = s.delivered := rfl
@[simp] theorem hardwareReset_draws (s : State) :
    (s.hardwareReset).draws = s.draws := rfl

/-! ### INIT's registers -/

@[simp] theorem initialise_initialized (p : Params) (rate : Binary32) (s : State) :
    (s.initialise p rate).initialized = true := rfl
@[simp] theorem initialise_errSticky (p : Params) (rate : Binary32) (s : State) :
    (s.initialise p rate).errSticky = s.errSticky := rfl
@[simp] theorem initialise_sampleRate (p : Params) (rate : Binary32) (s : State) :
    (s.initialise p rate).sampleRate = rate := rfl
@[simp] theorem initialise_bufLen (p : Params) (rate : Binary32) (s : State) :
    (s.initialise p rate).bufLen = FLOORI rate := rfl
@[simp] theorem initialise_buffer (p : Params) (rate : Binary32) (s : State) :
    (s.initialise p rate).buffer = Memory.cleared := rfl
@[simp] theorem initialise_writeIndex (p : Params) (rate : Binary32) (s : State) :
    (s.initialise p rate).writeIndex = 0 := rfl
@[simp] theorem initialise_readIndex (p : Params) (rate : Binary32) (s : State) :
    (s.initialise p rate).readIndex = 1 := rfl
@[simp] theorem initialise_carrierPhase (p : Params) (rate : Binary32) (s : State) :
    (s.initialise p rate).carrierPhase = plusZero := rfl
@[simp] theorem initialise_modulatorPhase (p : Params) (rate : Binary32) (s : State) :
    (s.initialise p rate).modulatorPhase = plusZero := rfl
@[simp] theorem initialise_carrierFreqHz (p : Params) (rate : Binary32) (s : State) :
    (s.initialise p rate).carrierFreqHz = hz110 := rfl
@[simp] theorem initialise_modFreqHz (p : Params) (rate : Binary32) (s : State) :
    (s.initialise p rate).modFreqHz = hz110 := rfl
@[simp] theorem initialise_modRangeSamples (p : Params) (rate : Binary32) (s : State) :
    (s.initialise p rate).modRangeSamples = defaultRange p s.draws (FLOORI rate) := rfl
@[simp] theorem initialise_modOffsetSamples (p : Params) (rate : Binary32) (s : State) :
    (s.initialise p rate).modOffsetSamples = 1 := rfl
@[simp] theorem initialise_syncEnabled (p : Params) (rate : Binary32) (s : State) :
    (s.initialise p rate).syncEnabled = true := rfl
@[simp] theorem initialise_includeCarrier (p : Params) (rate : Binary32) (s : State) :
    (s.initialise p rate).includeCarrier = false := rfl
@[simp] theorem initialise_rsp (p : Params) (rate : Binary32) (s : State) :
    (s.initialise p rate).rsp = s.rsp := rfl
@[simp] theorem initialise_host (p : Params) (rate : Binary32) (s : State) :
    (s.initialise p rate).host = s.host := rfl
@[simp] theorem initialise_delivered (p : Params) (rate : Binary32) (s : State) :
    (s.initialise p rate).delivered = s.delivered := rfl
@[simp] theorem initialise_draws (p : Params) (rate : Binary32) (s : State) :
    (s.initialise p rate).draws = s.draws := rfl

/-! ### PROCESS's registers -/

@[simp] theorem advance_initialized (p : Params) (s t : State) :
    (State.advance p s t).initialized = t.initialized := rfl
@[simp] theorem advance_errSticky (p : Params) (s t : State) :
    (State.advance p s t).errSticky = t.errSticky := rfl
@[simp] theorem advance_sampleRate (p : Params) (s t : State) :
    (State.advance p s t).sampleRate = t.sampleRate := rfl
@[simp] theorem advance_bufLen (p : Params) (s t : State) :
    (State.advance p s t).bufLen = t.bufLen := rfl
@[simp] theorem advance_buffer (p : Params) (s t : State) :
    (State.advance p s t).buffer = t.buffer := rfl
@[simp] theorem advance_writeIndex (p : Params) (s t : State) :
    (State.advance p s t).writeIndex = advanceCursor s.writeIndex s.bufLen := rfl
@[simp] theorem advance_readIndex (p : Params) (s t : State) :
    (State.advance p s t).readIndex = advanceCursor s.readIndex s.bufLen := rfl
@[simp] theorem advance_carrierPhase (p : Params) (s t : State) :
    (State.advance p s t).carrierPhase = nextCarrierPhase p s := rfl
@[simp] theorem advance_modulatorPhase (p : Params) (s t : State) :
    (State.advance p s t).modulatorPhase = nextModulatorPhase p s := rfl
@[simp] theorem advance_carrierFreqHz (p : Params) (s t : State) :
    (State.advance p s t).carrierFreqHz = t.carrierFreqHz := rfl
@[simp] theorem advance_modFreqHz (p : Params) (s t : State) :
    (State.advance p s t).modFreqHz = t.modFreqHz := rfl
@[simp] theorem advance_modRangeSamples (p : Params) (s t : State) :
    (State.advance p s t).modRangeSamples = t.modRangeSamples := rfl
@[simp] theorem advance_modOffsetSamples (p : Params) (s t : State) :
    (State.advance p s t).modOffsetSamples = t.modOffsetSamples := rfl
@[simp] theorem advance_syncEnabled (p : Params) (s t : State) :
    (State.advance p s t).syncEnabled = t.syncEnabled := rfl
@[simp] theorem advance_includeCarrier (p : Params) (s t : State) :
    (State.advance p s t).includeCarrier = t.includeCarrier := rfl
@[simp] theorem advance_rsp (p : Params) (s t : State) :
    (State.advance p s t).rsp = t.rsp := rfl
@[simp] theorem advance_host (p : Params) (s t : State) :
    (State.advance p s t).host = t.host := rfl
@[simp] theorem advance_delivered (p : Params) (s t : State) :
    (State.advance p s t).delivered = t.delivered := rfl
@[simp] theorem advance_draws (p : Params) (s t : State) :
    (State.advance p s t).draws = s.draws + 1 := rfl

/-! ### A word presented -/

@[simp] theorem presentWord_initialized (s : State) (w : CommandWord) :
    (s.presentWord w).initialized = s.initialized := rfl
@[simp] theorem presentWord_errSticky (s : State) (w : CommandWord) :
    (s.presentWord w).errSticky = s.errSticky := rfl
@[simp] theorem presentWord_sampleRate (s : State) (w : CommandWord) :
    (s.presentWord w).sampleRate = s.sampleRate := rfl
@[simp] theorem presentWord_bufLen (s : State) (w : CommandWord) :
    (s.presentWord w).bufLen = s.bufLen := rfl
@[simp] theorem presentWord_buffer (s : State) (w : CommandWord) :
    (s.presentWord w).buffer = s.buffer := rfl
@[simp] theorem presentWord_writeIndex (s : State) (w : CommandWord) :
    (s.presentWord w).writeIndex = s.writeIndex := rfl
@[simp] theorem presentWord_readIndex (s : State) (w : CommandWord) :
    (s.presentWord w).readIndex = s.readIndex := rfl
@[simp] theorem presentWord_carrierPhase (s : State) (w : CommandWord) :
    (s.presentWord w).carrierPhase = s.carrierPhase := rfl
@[simp] theorem presentWord_modulatorPhase (s : State) (w : CommandWord) :
    (s.presentWord w).modulatorPhase = s.modulatorPhase := rfl
@[simp] theorem presentWord_carrierFreqHz (s : State) (w : CommandWord) :
    (s.presentWord w).carrierFreqHz = s.carrierFreqHz := rfl
@[simp] theorem presentWord_modFreqHz (s : State) (w : CommandWord) :
    (s.presentWord w).modFreqHz = s.modFreqHz := rfl
@[simp] theorem presentWord_modRangeSamples (s : State) (w : CommandWord) :
    (s.presentWord w).modRangeSamples = s.modRangeSamples := rfl
@[simp] theorem presentWord_modOffsetSamples (s : State) (w : CommandWord) :
    (s.presentWord w).modOffsetSamples = s.modOffsetSamples := rfl
@[simp] theorem presentWord_syncEnabled (s : State) (w : CommandWord) :
    (s.presentWord w).syncEnabled = s.syncEnabled := rfl
@[simp] theorem presentWord_includeCarrier (s : State) (w : CommandWord) :
    (s.presentWord w).includeCarrier = s.includeCarrier := rfl
@[simp] theorem presentWord_rsp (s : State) (w : CommandWord) :
    (s.presentWord w).rsp = none := rfl
@[simp] theorem presentWord_host (s : State) (w : CommandWord) :
    (s.presentWord w).host = .command w :: s.host := rfl
@[simp] theorem presentWord_delivered (s : State) (w : CommandWord) :
    (s.presentWord w).delivered = s.delivered := rfl
@[simp] theorem presentWord_draws (s : State) (w : CommandWord) :
    (s.presentWord w).draws = s.draws := rfl

/-! ### A response delivered -/

@[simp] theorem deliver_initialized (s : State) : s.deliver.initialized = s.initialized := by
  unfold State.deliver; split <;> rfl
@[simp] theorem deliver_errSticky (s : State) : s.deliver.errSticky = s.errSticky := by
  unfold State.deliver; split <;> rfl
@[simp] theorem deliver_sampleRate (s : State) : s.deliver.sampleRate = s.sampleRate := by
  unfold State.deliver; split <;> rfl
@[simp] theorem deliver_bufLen (s : State) : s.deliver.bufLen = s.bufLen := by
  unfold State.deliver; split <;> rfl
@[simp] theorem deliver_buffer (s : State) : s.deliver.buffer = s.buffer := by
  unfold State.deliver; split <;> rfl
@[simp] theorem deliver_writeIndex (s : State) : s.deliver.writeIndex = s.writeIndex := by
  unfold State.deliver; split <;> rfl
@[simp] theorem deliver_readIndex (s : State) : s.deliver.readIndex = s.readIndex := by
  unfold State.deliver; split <;> rfl
@[simp] theorem deliver_carrierPhase (s : State) : s.deliver.carrierPhase = s.carrierPhase := by
  unfold State.deliver; split <;> rfl
@[simp] theorem deliver_modulatorPhase (s : State) : s.deliver.modulatorPhase = s.modulatorPhase := by
  unfold State.deliver; split <;> rfl
@[simp] theorem deliver_carrierFreqHz (s : State) : s.deliver.carrierFreqHz = s.carrierFreqHz := by
  unfold State.deliver; split <;> rfl
@[simp] theorem deliver_modFreqHz (s : State) : s.deliver.modFreqHz = s.modFreqHz := by
  unfold State.deliver; split <;> rfl
@[simp] theorem deliver_modRangeSamples (s : State) : s.deliver.modRangeSamples = s.modRangeSamples := by
  unfold State.deliver; split <;> rfl
@[simp] theorem deliver_modOffsetSamples (s : State) : s.deliver.modOffsetSamples = s.modOffsetSamples := by
  unfold State.deliver; split <;> rfl
@[simp] theorem deliver_syncEnabled (s : State) : s.deliver.syncEnabled = s.syncEnabled := by
  unfold State.deliver; split <;> rfl
@[simp] theorem deliver_includeCarrier (s : State) : s.deliver.includeCarrier = s.includeCarrier := by
  unfold State.deliver; split <;> rfl
@[simp] theorem deliver_host (s : State) : s.deliver.host = s.host := by
  unfold State.deliver; split <;> rfl
@[simp] theorem deliver_draws (s : State) : s.deliver.draws = s.draws := by
  unfold State.deliver; split <;> rfl

@[simp] theorem deliver_rsp (s : State) : s.deliver.rsp = none := by
  unfold State.deliver; split
  · rfl
  · assumption

theorem deliver_delivered (s : State) : s.deliver.delivered = s.delivered ++ s.rsp.toList := by
  unfold State.deliver; split <;> simp [*]

end Sys2Proof.Machine
end

