-- ==== Sys2Proof/Laws/Memory.lean ====
section
/-! SUPPORT. The delay buffer: a read sees the last write to its index, and every operation keeps the canonical form. -/

namespace Sys2Proof.Machine

theorem lookup_below {l : List (Nat × Binary32)} : ∀ {lo i : Nat}, cellsCanonical lo l = true → i < lo →
    lookupCell l i = plusZero := by
  induction l with
  | nil => intros; rfl
  | cons c rest ih =>
    intro lo i h hi
    obtain ⟨j, v⟩ := c
    simp only [cellsCanonical, Bool.and_eq_true, decide_eq_true_eq] at h
    obtain ⟨⟨h1, -⟩, h3⟩ := h
    rw [lookupCell, if_neg (by omega)]
    exact ih h3 (by omega)

theorem canonical_weaken {l : List (Nat × Binary32)} {lo hi : Nat} (h : cellsCanonical hi l = true) (hle : lo ≤ hi) :
    cellsCanonical lo l = true := by
  cases l with
  | nil => rfl
  | cons c rest =>
    obtain ⟨j, v⟩ := c
    simp only [cellsCanonical, Bool.and_eq_true, decide_eq_true_eq] at h ⊢
    exact ⟨⟨by omega, h.1.2⟩, h.2⟩

theorem lookup_store {l : List (Nat × Binary32)} : ∀ {lo : Nat}, cellsCanonical lo l = true → ∀ (i k : Nat)
    (v : Binary32), lookupCell (storeCell l i v) k = if k = i then v else lookupCell l k := by
  induction l with
  | nil =>
    intro lo _ i k v
    by_cases hk : k = i
    · by_cases hv : v = plusZero <;> simp [storeCell, hv, lookupCell, hk]
    · by_cases hv : v = plusZero
      · simp [storeCell, hv, lookupCell, hk]
      · simp [storeCell, hv, lookupCell, hk, Ne.symm hk]
  | cons c rest ih =>
    intro lo h i k v
    obtain ⟨j, x⟩ := c
    simp only [cellsCanonical, Bool.and_eq_true, decide_eq_true_eq] at h
    obtain ⟨⟨h1, h2⟩, h3⟩ := h
    have hbelow : ∀ m, m < j → lookupCell ((j, x) :: rest) m = plusZero := by
      intro m hm
      rw [lookupCell, if_neg (by omega)]
      exact lookup_below h3 (by omega)
    rcases Nat.lt_trichotomy i j with hij | hij | hij
    · simp only [storeCell, hij, if_true]
      by_cases hv : v = plusZero
      · rw [if_pos hv]
        by_cases hk : k = i
        · rw [if_pos hk, hk, hbelow i hij, hv]
        · rw [if_neg hk]
      · rw [if_neg hv]
        by_cases hk : k = i
        · simp [lookupCell, hk]
        · rw [if_neg hk, lookupCell, if_neg (Ne.symm hk)]
    · subst hij
      simp only [storeCell, Nat.lt_irrefl, if_false, if_true]
      by_cases hv : v = plusZero
      · rw [if_pos hv]
        by_cases hk : k = i
        · rw [if_pos hk, hk, hv]; exact lookup_below h3 (by omega)
        · rw [if_neg hk, lookupCell, if_neg (Ne.symm hk)]
      · rw [if_neg hv]
        by_cases hk : k = i
        · simp [lookupCell, hk]
        · rw [if_neg hk, lookupCell, if_neg (Ne.symm hk), lookupCell, if_neg (Ne.symm hk)]
    · simp only [storeCell]
      rw [if_neg (by omega), if_neg (by omega), lookupCell]
      by_cases hk : j = k
      · rw [if_pos hk, if_neg (by omega), lookupCell, if_pos hk]
      · rw [if_neg hk, lookupCell, if_neg hk]
        exact ih h3 i k v

theorem canonical_store {l : List (Nat × Binary32)} : ∀ {lo : Nat}, cellsCanonical lo l = true → ∀ (i : Nat)
    (v : Binary32), cellsCanonical (min lo i) (storeCell l i v) = true := by
  induction l with
  | nil =>
    intro lo _ i v
    by_cases hv : v = plusZero <;> simp [storeCell, hv, cellsCanonical]
  | cons c rest ih =>
    intro lo h i v
    obtain ⟨j, x⟩ := c
    have h' := h
    simp only [cellsCanonical, Bool.and_eq_true, decide_eq_true_eq] at h
    obtain ⟨⟨h1, h2⟩, h3⟩ := h
    rcases Nat.lt_trichotomy i j with hij | hij | hij
    · simp only [storeCell, hij, if_true]
      by_cases hv : v = plusZero
      · rw [if_pos hv]; exact canonical_weaken h' (min_le_left _ _)
      · rw [if_neg hv]
        simp only [cellsCanonical, Bool.and_eq_true, decide_eq_true_eq]
        exact ⟨⟨min_le_right _ _, hv⟩, ⟨by omega, h2⟩, h3⟩
    · subst hij
      simp only [storeCell, Nat.lt_irrefl, if_false, if_true]
      by_cases hv : v = plusZero
      · rw [if_pos hv]; exact canonical_weaken h3 (by omega)
      · rw [if_neg hv]
        simp only [cellsCanonical, Bool.and_eq_true, decide_eq_true_eq]
        exact ⟨⟨min_le_right _ _, hv⟩, h3⟩
    · simp only [storeCell]
      rw [if_neg (by omega), if_neg (by omega)]
      simp only [cellsCanonical, Bool.and_eq_true, decide_eq_true_eq]
      refine ⟨⟨by omega, h2⟩, ?_⟩
      have := ih h3 i v
      rwa [min_eq_left (by omega)] at this

theorem store_within {l : List (Nat × Binary32)} {n i : Nat} (v : Binary32) (hi : i < n)
    (h : l.all (fun c => decide (c.1 < n)) = true) :
    (storeCell l i v).all (fun c => decide (c.1 < n)) = true := by
  induction l with
  | nil => by_cases hv : v = plusZero <;> simp [storeCell, hv, hi]
  | cons c rest ih =>
    obtain ⟨j, x⟩ := c
    simp only [List.all_cons, Bool.and_eq_true, decide_eq_true_eq] at h
    obtain ⟨h1, h2⟩ := h
    simp only [storeCell]
    split
    · split <;> simp only [List.all_cons, h1, h2, hi, decide_true, Bool.and_self]
    · split
      · split <;> simp only [List.all_cons, h2, hi, decide_true, Bool.and_self]
      · simp only [List.all_cons, Bool.and_eq_true, decide_eq_true_eq]
        exact ⟨h1, ih h2⟩

/-! ### The operations on a memory -/

/-- A read after a write: the value written at its index, what was there elsewhere (20_memory.md R52). -/
theorem Memory.read_write {m : Memory} (h : m.wf = true) (i k : Nat) (v : Binary32) :
    (m.write i v).read k = if k = i then v else m.read k := lookup_store h i k v

/-- A write keeps the canonical form. -/
theorem Memory.wf_write {m : Memory} (h : m.wf = true) (i : Nat) (v : Binary32) : (m.write i v).wf = true := by
  have := canonical_store h i v
  rwa [Nat.zero_min] at this

theorem Memory.within_write {m : Memory} {n i : Nat} (v : Binary32) (hi : i < n) (h : m.within n = true) :
    (m.write i v).within n = true := store_within v hi h

@[simp] theorem Memory.wf_cleared : Memory.cleared.wf = true := rfl

@[simp] theorem Memory.within_cleared (n : Nat) : Memory.cleared.within n = true := rfl

/-- After the clear every entry is +0.0. -/
@[simp] theorem Memory.read_cleared (i : Nat) : Memory.cleared.read i = plusZero := rfl

theorem lookup_ext {l l' : List (Nat × Binary32)} : ∀ {lo : Nat}, cellsCanonical lo l = true →
    cellsCanonical lo l' = true → (∀ i, lookupCell l i = lookupCell l' i) → l = l' := by
  induction l generalizing l' with
  | nil =>
    intro lo _ h' he
    cases l' with
    | nil => rfl
    | cons c rest =>
      obtain ⟨j, v⟩ := c
      simp only [cellsCanonical, Bool.and_eq_true, decide_eq_true_eq] at h'
      have := he j
      simp [lookupCell] at this
      exact absurd this.symm h'.1.2
  | cons c rest ih =>
    intro lo h h' he
    obtain ⟨j, v⟩ := c
    have hh := h
    simp only [cellsCanonical, Bool.and_eq_true, decide_eq_true_eq] at h
    cases l' with
    | nil =>
      have := he j
      simp [lookupCell] at this
      exact absurd this h.1.2
    | cons c' rest' =>
      obtain ⟨j', v'⟩ := c'
      have hh' := h'
      simp only [cellsCanonical, Bool.and_eq_true, decide_eq_true_eq] at h'
      have hj : j = j' := by
        rcases Nat.lt_trichotomy j j' with hlt | heq | hgt
        · exfalso
          have e := he j
          have z : lookupCell ((j', v') :: rest') j = plusZero := by
            rw [lookupCell, if_neg (by omega)]
            exact lookup_below h'.2 (by omega)
          rw [z, lookupCell, if_pos rfl] at e
          exact h.1.2 e
        · exact heq
        · exfalso
          have e := he j'
          have z : lookupCell ((j, v) :: rest) j' = plusZero := by
            rw [lookupCell, if_neg (by omega)]
            exact lookup_below h.2 (by omega)
          rw [z, lookupCell, if_pos rfl] at e
          exact h'.1.2 e.symm
      subst hj
      have hv : v = v' := by simpa [lookupCell] using he j
      subst hv
      have hr : rest = rest' := by
        refine ih h.2 h'.2 fun i => ?_
        by_cases hi : j = i
        · subst hi
          rw [lookup_below h.2 (by omega), lookup_below h'.2 (by omega)]
        · have := he i
          rwa [lookupCell, lookupCell, if_neg hi, if_neg hi] at this
      rw [hr]

/-- Memories in canonical form that read alike are equal. -/
theorem Memory.ext_read {m m' : Memory} (h : m.wf = true) (h' : m'.wf = true) (he : ∀ i, m.read i = m'.read i) :
    m = m' := by
  cases m; cases m'
  simp only [Memory.mk.injEq]
  exact lookup_ext h h' he

end Sys2Proof.Machine
end

