-- ==== Sys2Proof/Laws/Ops.lean ====
section
/-! SUPPORT. What each shared operation can do, said once: responses, the buffer accesses, the cursors, the port. -/

namespace Sys2Proof.Machine

open Sys2Proof.Config (Params)

/-! ### Responses -/

@[simp] theorem responseStatus_word (st : Status) (d : BitVec 32) :
    responseStatus (responseWord st d) = statusCode st := by
  unfold responseStatus responseWord
  generalize statusCode st = c
  ext i hi
  rw [BitVec.getElem_extractLsb']
  refine (BitVec.getLsbD_append (x := c) (y := d)).trans ?_
  rw [if_neg (by omega), Nat.add_sub_cancel_left]
  exact BitVec.getLsbD_eq_getElem hi

@[simp] theorem responseData_word (st : Status) (d : BitVec 32) :
    responseData (responseWord st d) = d := by
  unfold responseData responseWord
  generalize statusCode st = c
  ext i hi
  rw [BitVec.getElem_extractLsb', Nat.zero_add]
  refine (BitVec.getLsbD_append (x := c) (y := d)).trans ?_
  rw [if_pos hi]
  exact BitVec.getLsbD_eq_getElem hi

/-- Every response the model forms is one of R79 and R80. -/
theorem legalResponse_word (st : Status) (d : BitVec 32) (h : st ≠ .ok → d = 0#32) :
    legalResponse (responseWord st d) := by
  refine ⟨?_, fun hs => ?_⟩
  · rw [responseStatus_word]
    cases st with
    | ok => decide
    | error e => cases e <;> decide
  · rw [responseData_word]
    apply h
    rintro rfl
    exact hs (by rw [responseStatus_word]; rfl)

/-- Every exception's code is none of `OK`'s. -/
theorem exceptionCode_ne (e : Exception) : exceptionCode e ≠ 0#4 := by cases e <;> decide

/-! ### The buffer accesses -/

/-- A buffer read answers the entry, or faults on an index that is none (20_memory.md R52, R57). -/
theorem memRead_of_valid (s : State) (i : Int) (h0 : 0 ≤ i) (h1 : i < s.bufLen) :
    memRead s i = .ok (s.buffer.read i.toNat) := by
  simp [memRead, validIndex, h0, h1]

theorem memWrite_of_valid (s : State) (i : Nat) (v : Binary32) (h : i < s.bufLen) :
    memWrite s (i : Int) v = .ok { s with buffer := s.buffer.write i v } := by
  simp [memWrite, validIndex, h]

theorem memRead_ok {s : State} {i : Int} {v : Binary32} (h : memRead s i = .ok v) :
    0 ≤ i ∧ i < s.bufLen ∧ v = s.buffer.read i.toNat := by
  by_cases hv : 0 ≤ i ∧ i < s.bufLen
  · rw [memRead_of_valid s i hv.1 hv.2] at h
    exact ⟨hv.1, hv.2, (Except.ok.inj h).symm⟩
  · simp [memRead, validIndex, hv] at h

theorem memWrite_ok {s t : State} {i : Nat} {v : Binary32} (h : memWrite s (i : Int) v = .ok t) :
    i < s.bufLen ∧ t = { s with buffer := s.buffer.write i v } := by
  by_cases hv : i < s.bufLen
  · rw [memWrite_of_valid s i v hv] at h
    exact ⟨hv, (Except.ok.inj h).symm⟩
  · simp [memWrite, validIndex, hv] at h

/-! ### Cursors -/

theorem advanceCursor_lt {i len : Nat} (h : i < len) : advanceCursor i len < len := by
  simp only [advanceCursor]; split <;> omega

/-- A cursor in range advances by one modulo L. -/
theorem advanceCursor_eq_mod {i len : Nat} (h : i < len) : advanceCursor i len = (i + 1) % len := by
  simp only [advanceCursor]
  split
  · rename_i he; rw [he, Nat.mod_self]
  · rw [Nat.mod_eq_of_lt (by omega)]

/-- The read pointer is an entry of the buffer whatever the offset (41_process.md R110). -/
theorem pointerAt_range (r : Nat) (offset : Int) {len : Nat} (h : 0 < len) :
    0 ≤ pointerAt r offset len ∧ pointerAt r offset len < len := by
  have h0 : (len : Int) ≠ 0 := by omega
  have h1 : (0 : Int) < len := by omega
  exact ⟨Int.emod_nonneg _ h0, Int.emod_lt_of_pos _ h1⟩

/-! ### Exceptions -/

/-- Taking an exception changes `errSticky` and the response, and nothing else (60_exceptions.md R155). -/
theorem raise_eq (e : Exception) (s : State) :
    raise e s = .next { s with errSticky := true, rsp := some (responseWord (.error e) 0#32) } := rfl

theorem accept_eq (s : State) (d : BitVec 32) :
    accept s d = .next { s with rsp := some (responseWord .ok d) } := rfl

theorem whenInitialized_true {s : State} (h : s.initialized = true) (k : State → Result) :
    whenInitialized s k = k s := by simp [whenInitialized, h]

theorem whenInitialized_false {s : State} (h : s.initialized = false) (k : State → Result) :
    whenInitialized s k = raise .notInit s := by simp [whenInitialized, h]

/-! ### The port -/

theorem portStep_idle (run : CommandWord → State → Result) {s : State} (h : s.host = []) :
    portStep run s = .next s := by simp [portStep, h]

theorem portStep_reset (run : CommandWord → State → Result) {s : State} {rest : List HostMove}
    (h : s.host = .reset :: rest) : portStep run s = .next { s with host := rest }.hardwareReset := by
  simp [portStep, h]

theorem portStep_take (run : CommandWord → State → Result) {s : State} {rest : List HostMove}
    (h : s.host = .takeResponse :: rest) : portStep run s = .next { s with host := rest }.deliver := by
  simp [portStep, h]

theorem portStep_busy (run : CommandWord → State → Result) {s : State} {rest : List HostMove} {w : CommandWord}
    {r : ResponseWord} (h : s.host = .command w :: rest) (hr : s.rsp = some r) :
    portStep run s = .next (s.holdCommand w rest) := by simp [portStep, h, hr]

/-- What holding a command can be: a delivery, a reset, or nothing. -/
theorem holdCommand_cases (s : State) (w : CommandWord) (rest : List HostMove) :
    (∃ later, rest = .takeResponse :: later ∧ s.holdCommand w rest = { s with host := .command w :: later }.deliver) ∨
      (∃ later, rest = .reset :: later ∧ s.holdCommand w rest = { s with host := .command w :: later }.hardwareReset) ∨
      s.holdCommand w rest = s := by
  rcases rest with _ | ⟨m, later⟩
  · exact .inr (.inr rfl)
  · cases m with
    | takeResponse => exact .inl ⟨later, rfl, rfl⟩
    | reset => exact .inr (.inl ⟨later, rfl, rfl⟩)
    | command v => exact .inr (.inr rfl)

theorem portStep_command (run : CommandWord → State → Result) {s : State} {rest : List HostMove} {w : CommandWord}
    (h : s.host = .command w :: rest) (hr : s.rsp = none) :
    portStep run s = run w { s with host := rest } := by simp [portStep, h, hr]

/-- What one step can be, said once: nothing, a reset, a delivery (the two last also while a command is held, so that the
host's further moves are the ones given), or a command run. -/
theorem portStep_cases (run : CommandWord → State → Result) (s : State) :
    (portStep run s = .next s) ∨
      (∃ moves, portStep run s = .next { s with host := moves }.hardwareReset) ∨
      (∃ moves, portStep run s = .next { s with host := moves }.deliver) ∨
      (∃ w rest, s.host = .command w :: rest ∧ s.rsp = none ∧
        portStep run s = run w { s with host := rest }) := by
  rcases hh : s.host with _ | ⟨m, rest⟩
  · exact .inl (portStep_idle run hh)
  · cases m with
    | reset => exact .inr (.inl ⟨rest, portStep_reset run hh⟩)
    | takeResponse => exact .inr (.inr (.inl ⟨rest, portStep_take run hh⟩))
    | command w =>
      rcases Option.eq_none_or_eq_some s.rsp with hr | ⟨r, hr⟩
      · exact .inr (.inr (.inr ⟨w, rest, rfl, hr, portStep_command run hh hr⟩))
      · have hb := portStep_busy run hh hr
        rcases holdCommand_cases s w rest with ⟨later, -, he⟩ | ⟨later, -, he⟩ | he
        · rw [he] at hb; exact .inr (.inr (.inl ⟨_, hb⟩))
        · rw [he] at hb; exact .inr (.inl ⟨_, hb⟩)
        · rw [he] at hb; exact .inl hb

/-- What running a word can be: the meaning of the command it encodes, or the rejection of an illegal word. -/
theorem runWordWith_cases (p : Params) (w : CommandWord) (s : State) :
    (∃ i, decode w = .ok i ∧ runWordWith p w s = execWith p i s) ∨
      (∃ e, decode w = .error e ∧ runWordWith p w s = raise .illegalCmd s) := by
  rcases hd : decode w with e | i
  · exact .inr ⟨e, rfl, by simp [runWordWith, hd]⟩
  · exact .inl ⟨i, rfl, by simp [runWordWith, hd]⟩

end Sys2Proof.Machine
end

