-- ==== Sys2Proof/Laws/Meanings.lean ====
section
/-! SUPPORT. One specification lemma a command: what its meaning answers, as one equation, and when it rejects. -/

namespace Sys2Proof.Machine

open Sys2Proof.Config (Params)

/-! ### INIT -/

theorem initWith_legal (p : Params) {rate : Binary32} (s : State) (h : initOperandLegal p.bufMax rate = true) :
    initWith p rate s = .next ((s.initialise p rate).respond .ok 0#32) := by
  simp [initWith, h, accept]

theorem initWith_illegal (p : Params) {rate : Binary32} (s : State) (h : initOperandLegal p.bufMax rate = false) :
    initWith p rate s = raise .badRate s := by simp [initWith, h]

/-! ### The setters -/

theorem setter_initialized {s : State} (h : s.initialized = true) (write : State → State) :
    setter s write = .next ((write s).respond .ok 0#32) := by
  simp [setter, whenInitialized, h, accept]

theorem setter_uninitialized {s : State} (h : s.initialized = false) (write : State → State) :
    setter s write = raise .notInit s := by simp [setter, whenInitialized, h]

/-- What a setter can do, said once: it is `setter` with a write that leaves the flags, the rate, the buffer, the cursors,
the phases and the host's side alone (42_config.md R136). -/
theorem execWith_setter (p : Params) {i : Instr} (h : isSetter i = true) (s : State) :
    ∃ write : State → State, execWith p i s = setter s write ∧
      (write s).initialized = s.initialized ∧ (write s).errSticky = s.errSticky ∧
      (write s).sampleRate = s.sampleRate ∧ (write s).bufLen = s.bufLen ∧ (write s).buffer = s.buffer ∧
      (write s).writeIndex = s.writeIndex ∧ (write s).readIndex = s.readIndex ∧
      (write s).carrierPhase = s.carrierPhase ∧ (write s).modulatorPhase = s.modulatorPhase ∧
      (write s).host = s.host ∧ (write s).delivered = s.delivered := by
  cases i with
  | init _ => cases h
  | process => cases h
  | setcf hz => exact ⟨fun s => { s with carrierFreqHz := hz }, by simp [execWith, execSetcf]⟩
  | setmf hz => exact ⟨fun s => { s with modFreqHz := hz }, by simp [execWith, execSetmf]⟩
  | setmr x =>
    exact ⟨fun s => { s with
      modRangeSamples := fractionOfBuffer (p.nan s.draws .rangeProduct) x s.bufLen
      draws := s.draws + 1 }, by simp [execWith, setmrWith]⟩
  | setmo x =>
    exact ⟨fun s => { s with
      modOffsetSamples := (FTOI (fractionOfBuffer (p.nan s.draws .offsetProduct) x s.bufLen)).toNat },
      by simp [execWith, setmoWith]⟩
  | setsync b => exact ⟨fun s => { s with syncEnabled := b }, by simp [execWith, execSetsync]⟩
  | setincl b => exact ⟨fun s => { s with includeCarrier := b }, by simp [execWith, execSetincl]⟩

/-! ### PROCESS -/

/-- An accepted PROCESS, in a state whose cursors are in range: every field of the next state (41_process.md R100). -/
theorem processWith_next (p : Params) {s : State} (hi : s.initialized = true) (hw : s.writeIndex < s.bufLen) :
    processWith p s = .next ((State.advance p s
      { s with buffer := s.buffer.write s.writeIndex (carrierSample p s) }).respond .ok
        (mix p s (s.buffer.read (readPointer p s).toNat))) := by
  have hlen : 0 < s.bufLen := by omega
  obtain ⟨h0, h1⟩ := pointerAt_range s.readIndex (readOffset p s) hlen
  rw [processWith, whenInitialized_true hi, produceSample, memRead_of_valid s (readPointer p s) h0 h1,
    memWrite_of_valid s s.writeIndex _ hw]
  rfl

/-- What PROCESS does where it answers a next state: it is rejected, or it is accepted and the write cursor is in range. -/
theorem processWith_cases (p : Params) {s t : State} (h : processWith p s = .next t) :
    (s.initialized = false ∧ t = s.markRejected.respond (.error .notInit) 0#32) ∨
      (s.initialized = true ∧ s.writeIndex < s.bufLen ∧
        t = (State.advance p s
          { s with buffer := s.buffer.write s.writeIndex (carrierSample p s) }).respond .ok
            (mix p s (s.buffer.read (readPointer p s).toNat))) := by
  rcases Bool.eq_false_or_eq_true s.initialized with hi | hi
  · right
    by_cases hw : s.writeIndex < s.bufLen
    · rw [processWith_next p hi hw] at h
      exact ⟨hi, hw, (Host.Outcome.next.inj h).symm⟩
    · exfalso
      rw [processWith, whenInitialized_true hi, produceSample] at h
      split at h
      · cases h
      · split at h
        · cases h
        · rename_i hh
          exact hw (memWrite_ok hh).1
  · left
    rw [processWith, whenInitialized_false hi, raise] at h
    exact ⟨hi, (Host.Outcome.next.inj h).symm⟩

/-! ### Every command while `initialized` = 0 -/

theorem execWith_uninitialized (p : Params) {i : Instr} {s : State} (hs : s.initialized = false)
    (hi : ∀ rate, i ≠ .init rate) : execWith p i s = raise .notInit s := by
  cases i with
  | init rate => exact absurd rfl (hi rate)
  | process => simp [execWith, processWith, whenInitialized, hs]
  | setcf hz => simp [execWith, execSetcf, setter, whenInitialized, hs]
  | setmf hz => simp [execWith, execSetmf, setter, whenInitialized, hs]
  | setmr x => simp [execWith, setmrWith, setter, whenInitialized, hs]
  | setmo x => simp [execWith, setmoWith, setter, whenInitialized, hs]
  | setsync b => simp [execWith, execSetsync, setter, whenInitialized, hs]
  | setincl b => simp [execWith, execSetincl, setter, whenInitialized, hs]

end Sys2Proof.Machine
end

