-- ==== Sys2Proof/Laws/PerInstr.lean ====
section
/-! SUPPORT. One statement for all commands, made a command at a time: the encoding of each is a word of its own row. -/

namespace Sys2Proof.Laws

/-- The command's word is one that its row of the opcode table matches (30_encoding.md R74). -/
def EncodesItsRow.Statement (i : Sys2Proof.Instr) : Prop :=
  ∃ row ∈ opcodeTable, row.mnemonic = i.mnemonic ∧ row.matches (encode i) = true

/-- A format F command, its row given, lies in that row. -/
theorem matches_formatF {row : OpcodeRow} {op : BitVec 8} (arg : BitVec 32) (hm : row.mask = 0xFF00000000#40)
    (hw : row.matchWord = commandWord op 0#32) : row.matches (commandWord op arg) = true := by
  rw [OpcodeRow.matches, hm, hw, commandWord_maskF, beq_self_eq_true]

theorem EncodesItsRow.init (rate : Binary32) : EncodesItsRow.Statement (.init rate) :=
  ⟨opcodeTable[0], by decide, rfl, matches_formatF rate (by decide) (by decide)⟩

theorem EncodesItsRow.process : EncodesItsRow.Statement .process :=
  ⟨opcodeTable[1], by decide, rfl, by decide⟩

theorem EncodesItsRow.setcf (hz : Binary32) : EncodesItsRow.Statement (.setcf hz) :=
  ⟨opcodeTable[2], by decide, rfl, matches_formatF hz (by decide) (by decide)⟩

theorem EncodesItsRow.setmf (hz : Binary32) : EncodesItsRow.Statement (.setmf hz) :=
  ⟨opcodeTable[3], by decide, rfl, matches_formatF hz (by decide) (by decide)⟩

theorem EncodesItsRow.setmr (fraction : Binary32) : EncodesItsRow.Statement (.setmr fraction) :=
  ⟨opcodeTable[4], by decide, rfl, matches_formatF fraction (by decide) (by decide)⟩

theorem EncodesItsRow.setmo (fraction : Binary32) : EncodesItsRow.Statement (.setmo fraction) :=
  ⟨opcodeTable[5], by decide, rfl, matches_formatF fraction (by decide) (by decide)⟩

theorem EncodesItsRow.setsync (enabled : Bool) : EncodesItsRow.Statement (.setsync enabled) :=
  ⟨opcodeTable[6], by decide, rfl, by revert enabled; decide⟩

theorem EncodesItsRow.setincl (enabled : Bool) : EncodesItsRow.Statement (.setincl enabled) :=
  ⟨opcodeTable[7], by decide, rfl, by revert enabled; decide⟩

end Sys2Proof.Laws
end

