-- ==== Sys2Proof/Tests/Slice0.lean ====
section
/-! SUPPORT. Tests against the spec's vectors (95_test_vectors.md), and for each obligation with hypotheses a witness that
meets them. -/

namespace Sys2Proof.Tests

open Sys2Proof.Machine
open Sys2Proof.Config (Params)

/-- A field of the next state, where there is one. -/
def after {α : Type} (r : Result) (f : State → α) : Option α :=
  match r with
  | .next t => some (f t)
  | .fault _ => none
  | .refused _ => none

/-- Parameters with the simplest sine generator, for what no sine matters to. It has S1 and S2 and not S3. -/
def zeroSine : Params where
  bufMax := 262144
  sin := fun _ => plusZero
  sinErr := 0
  nan := fun _ _ _ _ => (false, 0)

/-- Legal parameters: the generator of Machine/Sine.lean, whose values nothing here evaluates. -/
def legalSine : Params :=
  { zeroSine with sin := Config.halfSineGenerator.sin, sinErr := Config.halfSineGenerator.err }

/-- `zeroSine` but for one value of `SIN_REF` (95_test_vectors.md, its table). -/
def refSine : Params := { zeroSine with sin := fun x => if x = 0x3C6BE9A5#32 then 0x3C6BE78F#32 else plusZero }

/-- The core after an accepted INIT with this rate. -/
def ready (rate : Binary32) : State := State.booted zeroSine rate

/-! ### Words: the smoke test of well-formedness, and decoding -/

theorem test_smoke_unassigned : legalWord 0x0000000000#40 = false := by decide
theorem test_smoke_reserved : legalWord 0x1600000000#40 = false ∧ legalWord 0x1700000001#40 = false := by decide
theorem test_smoke_process_operand : legalWord 0x0200000001#40 = false := by decide
theorem test_smoke_setsync_bits : legalWord 0x1400000002#40 = false := by decide
theorem test_smoke_setincl_bits : legalWord 0x1580000000#40 = false := by decide
theorem test_smoke_legal : legalWord 0x017FC00000#40 = true ∧ legalWord 0x1500000001#40 = true := by decide

/- The words of V1, V4 and V5, their fields written out as R74 places them. -/
theorem test_decode_init : decode (0x01#8 ++ 0x473B8000#32) = .ok (.init 0x473B8000#32) := by decide
theorem test_decode_process : decode 0x0200000000#40 = .ok .process := by decide
theorem test_decode_setcf : decode 0x10435C0000#40 = .ok (.setcf 0x435C0000#32) := by decide
theorem test_decode_setmf : decode 0x11425C0000#40 = .ok (.setmf 0x425C0000#32) := by decide
theorem test_decode_setmr : decode 0x123F000000#40 = .ok (.setmr 0x3F000000#32) := by decide
theorem test_decode_setmo : decode 0x133E800000#40 = .ok (.setmo 0x3E800000#32) := by decide
theorem test_decode_setsync : decode 0x1400000001#40 = .ok (.setsync true) := by decide
theorem test_decode_setincl : decode 0x1500000000#40 = .ok (.setincl false) := by decide
theorem test_decode_illegal : decode 0xFF00000000#40 = .error (.unassignedOpcode 0xFF#8) := by decide
theorem test_table_word : decodeTableWord 40 0x1500000001 = some (.setincl true) := by decide

/- R81, R82. -/
theorem test_listing : assemble ["INIT 44100.5".toList, "SETMR 0.1 ; tenth".toList, "SETSYNC 0".toList] =
    some [0x01472C4480#40, 0x123DCCCCCD#40, 0x1400000000#40] := by decide

/-! ### Conversions (V3) and the read pointer (V7) -/

theorem test_FTOI : FTOI 0xC039999A#32 = -2 ∧ FTOI 0xC27A2E64#32 = -62 ∧ FTOI 0x7F800000#32 = 2147483647 ∧
    FTOI 0xCF000000#32 = -2147483648 ∧ FTOI 0x7FC00000#32 = 0 := by decide
theorem test_emod : emod (-6) 8 = 2 ∧ emod (-9) 8 = 7 ∧ emod 17 8 = 1 := by decide
theorem test_clamp01 : clamp01 0x3FC00000#32 = 0x3F800000#32 ∧ clamp01 0xFF800000#32 = 0x00000000#32 ∧
    clamp01 0x80000000#32 = 0x80000000#32 := by decide
theorem test_pointer : pointerAt 436 (-61) 48000 = 497 ∧ pointerAt 5 96000 48000 = 5 ∧ pointerAt 7 (-8) 8 = 7 := by decide
/- V2, the overflowing product. -/
theorem test_increment : increment zeroSine 0 0x7F7FC99E#32 0x473B8000#32 = 0x7F800000#32 ∧
    increment zeroSine 0 0xBF800000#32 0x41000000#32 = 0xBF490FDB#32 := by decide

/-! ### Commands, one step each -/

/- V1: 44100.5 keeps its fraction in the rate and loses it in the length. -/
theorem test_init_fraction :
    after (exec (.init 0x472C4480#32) State.reset) (fun t => (t.bufLen, t.sampleRate, t.modRangeSamples, t.rsp)) =
      some (44100, 0x472C4480#32, 0x462C4400#32, some 0x000000000#36) := by decide
/- V1 and R157: a rejected INIT leaves an initialised core as it was. -/
theorem test_init_rejected :
    after (exec (.init 0x48800020#32) (ready 0x41000000#32)) (fun t => (t.initialized, t.bufLen, t.errSticky, t.rsp)) =
      some (true, 8, true, some 0x300000000#36) := by decide
/- T1, the first PROCESS: offset 173, entry 47828 read, `cs` stored. -/
theorem test_process_first :
    after (processWith refSine (ready 0x473B8000#32))
        (fun t => (t.carrierPhase, t.buffer.read 0, t.readIndex, t.writeIndex, t.rsp)) =
      some (0x3C6BE9A5#32, 0x3C6BE78F#32, 2, 1, some 0x000000000#36) ∧
    readOffset refSine (ready 0x473B8000#32) = 173 ∧ readPointer refSine (ready 0x473B8000#32) = 47828 := by decide
/- V10 (a): the sum equals `TWO_PI` and wraps to +0. -/
theorem test_process_wraps_on_equality :
    after (processWith zeroSine
        { ready 0x40000000#32 with carrierFreqHz := 0x3F800000#32, modFreqHz := 0x3F800000#32, carrierPhase := 0x40490FDB#32 })
      (fun t => (t.carrierPhase, t.modulatorPhase)) = some (0x00000000#32, 0x40490FDB#32) := by decide
theorem test_setcf : after (exec (.setcf 0x7FC00000#32) (ready 0x41000000#32)) (fun t => (t.carrierFreqHz, t.modFreqHz)) =
    some (0x7FC00000#32, 0x42DC0000#32) := by decide
theorem test_setmf : after (exec (.setmf 0x425C0000#32) (ready 0x41000000#32)) (fun t => (t.carrierFreqHz, t.modFreqHz)) =
    some (0x42DC0000#32, 0x425C0000#32) := by decide
/- V4: 0.3 of 7. -/
theorem test_setmr : after (exec (.setmr 0x3E99999A#32) (ready 0x40E00000#32)) (fun t => (t.modRangeSamples, t.modOffsetSamples)) =
    some (0x40066667#32, 1) := by decide
/- V4: a quarter of 22051. -/
theorem test_setmo : after (exec (.setmo 0x3E800000#32) (ready 0x46AC4600#32)) (fun t => (t.modRangeSamples, t.modOffsetSamples)) =
    some (0x45AC4600#32, 5512) := by decide
theorem test_setmo_nan : after (setmoWith zeroSine 0x7FC00000#32 (ready 0x41000000#32)) (fun t => t.modOffsetSamples) = some 0 := by
  decide
theorem test_setsync : after (exec (.setsync false) (ready 0x41000000#32)) (fun t => (t.syncEnabled, t.includeCarrier)) =
    some (false, false) := by decide
theorem test_setincl : after (exec (.setincl true) (ready 0x41000000#32)) (fun t => (t.syncEnabled, t.includeCarrier)) =
    some (true, true) := by decide
/- V6: the decode test comes before the initialisation test (R154). -/
theorem test_decode_test_first :
    after (step (State.reset.withFetchWord 40 0x0200000001)) (fun t => (t.errSticky, t.rsp)) = some (true, some 0x100000000#36) ∧
    after (step (State.reset.withFetchWord 40 0x0200000000)) (fun t => (t.errSticky, t.rsp)) = some (true, some 0x200000000#36) := by
  decide

/-! ### Witnesses: the parameters, the invariant, a PROCESS -/

theorem legal_legalSine : Legal legalSine :=
  ⟨by decide, by decide, Config.halfSineGenerator.range, Config.halfSineGenerator.zero,
    Config.halfSineGenerator.err_nonneg, Config.halfSineGenerator.err_lt_one, Config.halfSineGenerator.accurate⟩

/-- The state after INIT 8.0. -/
abbrev s8 : State := ready 0x41000000#32

theorem toRat_eight : toRat 0x41000000#32 = 8 := by norm_num [toRat_eq, signBit_eq, magField_eq, magVal]

theorem inv_s8 : Inv legalSine s8 where
  canonical := by decide
  within := fun _ => by decide
  rate := fun _ => ⟨by decide, by change 2 ≤ toRat 0x41000000#32; rw [toRat_eight]; norm_num⟩
  length := fun _ => by decide
  cursors := fun _ => ⟨by decide, by decide, by decide⟩
  range := fun _ => by
    right
    have h : s8.modRangeSamples = two := by decide
    rw [h, show s8.bufLen = 8 by decide]
    exact ⟨by decide, by simp, by simp; norm_num⟩
  offset := fun _ => by decide
  presented := fun r h => by cases h
  answered := fun r h => by cases h

/-- Any state with its write cursor in range and `initialized` = 1 completes PROCESS. -/
theorem completes {p : Params} {s : State} (hi : s.initialized = true) (hw : s.writeIndex < s.bufLen) :
    ∃ t, execWith p .process s = .next t := ⟨_, processWith_next p hi hw⟩

/-! ### Witnesses: one theorem an obligation with hypotheses, named after it -/

theorem witness_DecodeInvertsEncode : (Instr.setmo 0xFFFFFFFF#32).wf = true ∧ (Instr.setsync true).wf = true := by decide

theorem witness_EncodeInvertsDecode :
    decode 0x02FFFFFFFF#40 ≠ .ok .process ∧ decode 0x0200000000#40 = .ok .process ∧
      decode 0x13FFFFFFFF#40 = .ok (.setmo 0xFFFFFFFF#32) ∧ decode 0x1500000001#40 = .ok (.setincl true) := by decide

theorem witness_OpcodeRowsAreDisjoint : ∃ a ∈ opcodeTable, a.matches 0x1400000001#40 = true ∧
    decode 0x1400000001#40 = .ok (.setsync true) := by decide

/- R75, a boundary word of each clause. -/
theorem witness_IllegalWordsAreExactlyThese :
    legalWord 0x0F00000000#40 = false ∧ legalWord 0x1000000000#40 = true ∧
      legalWord 0x0280000000#40 = false ∧ legalWord 0x1580000001#40 = false ∧ legalWord 0x1400000001#40 = true := by decide

theorem witness_StepRunsPresentedCommand : ∃ s : State, s.host = [.command 0x10435C0000#40, .takeResponse] ∧ s.rsp = none ∧
    decode 0x10435C0000#40 = .ok (.setcf 0x435C0000#32) :=
  ⟨{ s8 with host := [.command 0x10435C0000#40, .takeResponse] }, rfl, rfl, by decide⟩

/- A word for each clause of R151. -/
theorem witness_StepRejectsIllegalWord : (∃ s : State, s.host = [.command 0x0300000000#40] ∧ s.rsp = none) ∧
    (0x0300000000#40).extractLsb' 32 8 ∉ [0x01#8, 0x02#8, 0x10#8, 0x11#8, 0x12#8, 0x13#8, 0x14#8, 0x15#8] ∧
    ((0x0280000000#40).extractLsb' 32 8 = 0x02#8 ∧ (0x0280000000#40).extractLsb' 0 32 ≠ 0#32) ∧
    (0x1400000002#40).extractLsb' 32 8 = 0x14#8 ∧ (0x1400000002#40).extractLsb' 1 31 ≠ 0#31 :=
  ⟨⟨{ s8 with host := [.command 0x0300000000#40] }, rfl, rfl⟩, by decide, by decide, by decide, by decide⟩

/- A held command with each of the moves that may follow it. -/
theorem witness_PortHandshake_held : ∀ rest ∈ [[], [.command 0x0200000000#40], [.takeResponse], [HostMove.reset]],
    ∃ s : State, s.host = .command 0x0200000000#40 :: rest ∧ s.rsp = some 0x000000000#36 :=
  fun rest _ => ⟨{ s8 with host := .command 0x0200000000#40 :: rest, rsp := some 0x000000000#36 }, rfl, rfl⟩

/- R83: the host takes the response while it holds the next word, and the step after that runs the word. -/
theorem test_hold_then_run :
    after (Host.Core.run Sys2Proof.core 2
        { s8 with host := [.command 0x1500000001#40, .takeResponse], rsp := some 0x000000000#36 })
      (fun t => (t.includeCarrier, t.delivered, t.rsp, t.host)) =
      some (true, [0x000000000#36], some 0x000000000#36, []) := by decide

theorem witness_PortHandshake_delivered : ∃ s : State, s.host = [.takeResponse] ∧ s.rsp = some 0x03F800000#36 :=
  ⟨{ s8 with host := [.takeResponse], rsp := some 0x03F800000#36 }, rfl, rfl⟩

theorem witness_PortHandshake_nothing : ∃ s : State, s.host = [.takeResponse] ∧ s.rsp = none :=
  ⟨{ s8 with host := [.takeResponse] }, rfl, rfl⟩

theorem witness_PortHandshake_idle : s8.host = [] := rfl

theorem witness_HardwareResetClearsFlagsAndPort : ∃ s : State, s.host = [.reset] ∧ s.initialized = true ∧ s.errSticky = true ∧
    s.rsp = some 0x000000000#36 :=
  ⟨{ s8 with host := [.reset], errSticky := true, rsp := some 0x000000000#36 }, rfl, rfl, rfl, rfl⟩

theorem witness_UnspecifiedRegistersAreUnobservable : ∃ s t : State, HiddenAlike s t ∧ s ≠ t :=
  ⟨State.reset, { State.reset with bufLen := 7, carrierPhase := 0x7FC00000#32 },
    ⟨rfl, rfl, rfl, rfl, rfl, rfl, rfl⟩, by decide⟩

/- Such states settle by an accepted INIT. -/
theorem witness_StepHidesOrSettles : ∃ s t : State, HiddenAlike s t ∧ s ≠ t ∧ s.host = [.command 0x0141000000#40] :=
  ⟨{ State.reset with host := [.command 0x0141000000#40] },
    { State.reset with host := [.command 0x0141000000#40], bufLen := 7 },
    ⟨rfl, rfl, rfl, rfl, rfl, rfl, rfl⟩, by decide, rfl⟩

theorem witness_EveryCommandIsAnswered : Legal legalSine ∧ Inv legalSine s8 := ⟨legal_legalSine, inv_s8⟩

/- R91, the two ends of the legal range. -/
theorem witness_InitSetsEveryRegister : initOperandLegal coreParams.bufMax 0x40000000#32 = true ∧
    initOperandLegal coreParams.bufMax 0x4880001F#32 = true := by decide

/- A boundary value of each clause of R153. -/
theorem witness_InitRejectsBadRate : flt 0x3FFFFFFF#32 0x40000000#32 = true ∧ coreParams.bufMax < FLOORI 0x48800020#32 ∧
    isInf 0x7F800000#32 = true ∧ isNaN 0x7F800001#32 = true ∧ flt 0x80000000#32 0x40000000#32 = true := by decide

theorem witness_InitOperandLegalMeans : initOperandLegal 2 0x40000000#32 = true ∧ initOperandLegal 2 0x40400000#32 = false ∧
    toRat 0x3F800000#32 < 2 :=
  ⟨by decide, by decide, by change toRat one < 2; rw [toRat_one]; norm_num⟩

theorem witness_InitForgetsEverything : ∃ s t : State, initOperandLegal legalSine.bufMax 0x41000000#32 = true ∧ s ≠ t ∧
    s.errSticky = t.errSticky ∧ s.host = t.host ∧ s.delivered = t.delivered ∧ s.draws = t.draws :=
  ⟨State.reset, s8, by decide, by decide, rfl, rfl, rfl, rfl⟩

theorem witness_VerbatimSettersStoreTheOperand : s8.initialized = true := rfl

/- The clauses of R132 and R133 at their boundary values: a NaN, just below 0, both zeros, 1, just above 1. -/
theorem witness_RangeSetterStoresClampedShare : s8.initialized = true ∧ s8.bufLen ≤ 2 ^ 24 ∧
    isNaN 0x7FC00000#32 = true ∧ flt 0x80000001#32 0x00000000#32 = true ∧ flt 0x80000000#32 0x00000000#32 = false ∧
    fgt 0x3F800001#32 0x3F800000#32 = true ∧ fgt 0x3F800000#32 0x3F800000#32 = false ∧
    0 ≤ toRat 0x3F800000#32 ∧ toRat 0x3F800000#32 ≤ 1 :=
  ⟨rfl, by decide, by decide, by decide, by decide, by decide, by decide,
    by change 0 ≤ toRat one; simp, by change toRat one ≤ 1; simp⟩

theorem witness_OffsetSetterStoresTruncatedShare : s8.initialized = true ∧ s8.bufLen ≤ 2 ^ 24 ∧
    isNaN 0x7FC00000#32 = true ∧ isNaN 0x3F000000#32 = false ∧ flt 0x80000001#32 0x00000000#32 = true ∧
    fge 0x3F800000#32 0x3F800000#32 = true ∧ fge 0x3F7FFFFF#32 0x3F800000#32 = false := by decide

theorem witness_UninitialisedCommandsAreRejected : State.reset.initialized = false ∧ ∀ rate, Instr.process ≠ .init rate :=
  ⟨rfl, fun rate h => by cases h⟩

theorem witness_SettersAreIndependentAndTheLastWins : s8.initialized = true ∧
    isSetter (.setmr 0x3F000000#32) = true ∧ isSetter (.setmo 0x3F000000#32) = true ∧
    (Instr.setmr 0x3F000000#32).mnemonic ≠ (Instr.setmo 0x3F000000#32).mnemonic ∧
    (Instr.setmo 0x3F000000#32).mnemonic = (Instr.setmo 0x3E800000#32).mnemonic ∧
    (Instr.setmo 0x3F000000#32).mnemonic ≠ "SETMR" := by decide

theorem witness_ProcessFollowsItsLines : s8.initialized = true ∧ s8.writeIndex < s8.bufLen := by decide

theorem witness_ProcessFrame : ∃ t, s8.initialized = true ∧ s8.buffer.wf = true ∧ execWith zeroSine .process s8 = .next t :=
  (completes (p := zeroSine) (s := s8) rfl (by decide)).imp fun _ h => ⟨rfl, by decide, h⟩

/- At the last entry, where both cursors wrap one command apart. -/
theorem witness_CursorsAdvanceByOne : ∃ s t : State, s.initialized = true ∧ s.writeIndex + 1 = s.bufLen ∧ CursorInv s ∧
    execWith zeroSine .process s = .next t :=
  have h : ({ s8 with writeIndex := 7, readIndex := 0 } : State).writeIndex < 8 := by decide
  ⟨{ s8 with writeIndex := 7, readIndex := 0 }, _, rfl, by decide, ⟨by decide, by decide, by decide⟩,
    (completes (p := zeroSine) rfl h).choose_spec⟩

theorem witness_ReadPointerIsInRange : 0 < 2 := by decide

theorem witness_ProcessReadsBeforeItWrites : ∃ t, s8.initialized = true ∧ 2 ≤ s8.bufLen ∧ CursorInv s8 ∧
    s8.includeCarrier = false ∧ execWith zeroSine .process s8 = .next t ∧ readPointer zeroSine s8 = s8.writeIndex :=
  (completes (p := zeroSine) (s := s8) rfl (by decide)).imp fun _ h =>
    ⟨rfl, by decide, ⟨by decide, by decide, by decide⟩, rfl, h, by decide⟩

/- The carrier wraps and does not, with sync on and off. -/
theorem witness_PhasesWrapAndSync :
    (∃ t, execWith zeroSine .process s8 = .next t) ∧ carrierWraps zeroSine s8 = true ∧ s8.syncEnabled = true ∧
    (∃ t, execWith zeroSine .process { ready 0x473B8000#32 with syncEnabled := false } = .next t) ∧
    carrierWraps zeroSine (ready 0x473B8000#32) = false ∧
    fge (modulatorSum zeroSine { s8 with syncEnabled := false }) TWO_PI = true :=
  ⟨completes rfl (by decide), by decide, rfl, completes rfl (by decide), by decide, by decide⟩

theorem witness_IncrementsFollowTheRegisters : s8.carrierFreqHz = s8.modFreqHz := rfl

theorem witness_ReadOffsetIsBounded : Legal legalSine ∧ Inv legalSine s8 ∧ s8.initialized = true ∧
    isNaN s8.modRangeSamples = false ∧ isFinite (nextModulatorPhase zeroSine s8) = true :=
  ⟨legal_legalSine, inv_s8, rfl, by decide, by decide⟩

theorem witness_AddressArithmeticFitsIn34Bits : Legal legalSine ∧ Inv legalSine s8 ∧ s8.initialized = true :=
  ⟨legal_legalSine, inv_s8, rfl⟩

theorem witness_IncludeCarrierChangesOnlyTheResponse : s8.initialized = true ∧ s8.writeIndex < s8.bufLen := by decide

/- The smallest subnormal and an infinity. -/
theorem witness_AddingToZeroReturnsTheSample : isNaN 0x00000001#32 = false ∧ toRat 0x00000001#32 ≠ 0 ∧
    isNaN 0xFF800000#32 = false ∧ toRat 0xFF800000#32 ≠ 0 :=
  ⟨by decide, by norm_num [toRat_eq, signBit_eq, magField_eq, magVal], by decide,
    by norm_num [toRat_eq, signBit_eq, magField_eq, magVal]⟩

theorem witness_InitialisedProcessIsAccepted : Inv legalSine s8 ∧ s8.initialized = true := ⟨inv_s8, rfl⟩

theorem toRat_half : toRat 0x3F000000#32 = 1 / 2 ∧ toRat 0xBF000000#32 = -(1 / 2) := by
  constructor <;> norm_num [toRat_eq, signBit_eq, magField_eq, magVal]

theorem witness_CarrierSampleTracksTheSine : ∃ t : State, Legal legalSine ∧ s8.initialized = true ∧ s8.buffer.wf = true ∧
    execWith legalSine .process s8 = .next t ∧ isFinite t.carrierPhase = true := by
  refine ⟨_, legal_legalSine, rfl, by decide, processWith_next legalSine (s := s8) rfl (by decide), ?_⟩
  change isFinite (nextCarrierPhase legalSine s8) = true
  decide

/-- The core after INIT 8.0 with this frequency for both phases, and sync off. -/
def at8 (hz : Binary32) : State := { s8 with carrierFreqHz := hz, modFreqHz := hz, syncEnabled := false }

theorem inv_at8 (hz : Binary32) : Inv legalSine (at8 hz) :=
  ⟨inv_s8.canonical, inv_s8.within, inv_s8.rate, inv_s8.length, inv_s8.cursors, inv_s8.range, inv_s8.offset,
    inv_s8.presented, inv_s8.answered⟩

theorem at8_next (hz : Binary32) : ∃ t, execWith legalSine .process (at8 hz) = .next t ∧
    t.carrierPhase = nextCarrierPhase legalSine (at8 hz) ∧ t.modulatorPhase = nextModulatorPhase legalSine (at8 hz) :=
  ⟨_, processWith_next legalSine (s := at8 hz) rfl (by change 0 < s8.bufLen; decide), rfl, rfl⟩

theorem phase_zero : isFinite plusZero = true ∧ toRat plusZero = 0 ∧ toRat plusZero < toRat TWO_PI := by
  rw [toRat_plusZero, toRat_TWO_PI]
  exact ⟨by decide, rfl, by norm_num⟩

/- Both clauses at once: both phases stand at +0.0. -/
theorem witness_ZeroFrequencyHoldsThePhase : ∃ t, Inv legalSine (at8 0x80000000#32) ∧ (at8 0x80000000#32).initialized = true ∧
    execWith legalSine .process (at8 0x80000000#32) = .next t ∧ isFinite 0x80000000#32 = true ∧ toRat 0x80000000#32 = 0 ∧
    (at8 0x80000000#32).syncEnabled = false ∧ (at8 0x80000000#32).carrierFreqHz = 0x80000000#32 ∧
    (at8 0x80000000#32).modFreqHz = 0x80000000#32 ∧ (at8 0x80000000#32).carrierPhase = plusZero ∧
    (at8 0x80000000#32).modulatorPhase = plusZero :=
  (at8_next _).imp fun _ h => ⟨inv_at8 _, rfl, h.1, by decide,
    by norm_num [toRat_eq, signBit_eq, magField_eq, magVal], rfl, rfl, rfl, rfl, rfl⟩

theorem witness_NegativeFrequencyNeverRaisesThePhase : ∃ t, Inv legalSine (at8 0xBF800000#32) ∧
    (at8 0xBF800000#32).initialized = true ∧ execWith legalSine .process (at8 0xBF800000#32) = .next t ∧
    isFinite 0xBF800000#32 = true ∧ toRat 0xBF800000#32 ≤ 0 ∧ (at8 0xBF800000#32).syncEnabled = false ∧
    (at8 0xBF800000#32).carrierFreqHz = 0xBF800000#32 ∧ (at8 0xBF800000#32).modFreqHz = 0xBF800000#32 ∧
    (at8 0xBF800000#32).carrierPhase = plusZero ∧ (at8 0xBF800000#32).modulatorPhase = plusZero ∧
    isFinite t.carrierPhase = true ∧ isFinite t.modulatorPhase = true := by
  obtain ⟨t, h1, h2, h3⟩ := at8_next 0xBF800000#32
  refine ⟨t, inv_at8 _, rfl, h1, by decide, by norm_num [toRat_eq, signBit_eq, magField_eq, magVal], rfl, rfl, rfl, rfl, rfl,
    ?_, ?_⟩
  · rw [h2]; decide
  · rw [h3]; decide

/- R122 (d): an infinite frequency, and the finite one of V11 whose product overflows. -/
theorem witness_NonFiniteValuesPropagate_frequency : (∃ t, execWith legalSine .process (at8 0x7F7FC99E#32) = .next t) ∧
    isFinite 0x7F7FC99E#32 = true ∧
    isFinite (fmul (legalSine.nan 0 .incrementProduct) TWO_PI (at8 0x7F7FC99E#32).carrierFreqHz) = false ∧
    isFinite (fmul (legalSine.nan 0 .incrementProduct) TWO_PI (at8 0x7F7FC99E#32).modFreqHz) = false ∧
    isFinite 0x7F800000#32 = false :=
  ⟨(at8_next _).imp fun _ h => h.1, by decide, by decide, by decide, by decide⟩

/-- A carrier phase of infinity, a modulator phase and a range of NaN, sync off. -/
def nonFinite8 : State :=
  { s8 with carrierPhase := 0x7F800000#32, syncEnabled := false, modulatorPhase := 0x7FC00000#32,
            modRangeSamples := 0x7FC00000#32 }

theorem witness_NonFiniteValuesPropagate : ∃ t : State, nonFinite8.initialized = true ∧
    execWith zeroSine .process nonFinite8 = .next t ∧ isFinite nonFinite8.carrierPhase = false ∧
    nonFinite8.syncEnabled = false ∧ isFinite nonFinite8.modulatorPhase = false ∧ isNaN nonFinite8.modRangeSamples = true :=
  (completes (p := zeroSine) (s := nonFinite8) rfl (by decide)).imp fun _ h =>
    ⟨rfl, h, by decide, rfl, by decide, by decide⟩

theorem witness_ArithmeticRoundsToNearestEven : isFinite 0x7F7FFFFF#32 = true ∧ isFinite 0x00000001#32 = true ∧
    toRat 0x00000001#32 ≠ 0 :=
  ⟨by decide, by decide, by norm_num [toRat_eq, signBit_eq, magField_eq, magVal]⟩

theorem witness_ArithmeticOnSpecialValues : isNaN 0x7F800001#32 = true ∧ isInf 0x7F800000#32 = true ∧
    isInf 0xFF800000#32 = true ∧ signBit 0x7F800000#32 ≠ signBit 0xFF800000#32 ∧ isFinite 0x80000000#32 = true ∧
    toRat 0x80000000#32 = 0 ∧ toRat 0x7F7FFFFF#32 ≠ 0 :=
  ⟨by decide, by decide, by decide, by decide, by decide, by norm_num [toRat_eq, signBit_eq, magField_eq, magVal],
    by norm_num [toRat_eq, signBit_eq, magField_eq, magVal]⟩

theorem witness_ComparisonsAreExact : isFinite 0x80000000#32 = true ∧ isFinite 0x7F7FFFFF#32 = true ∧
    isNaN 0xFFFFFFFF#32 = true := by decide

/- R9 at the values where its clauses meet. -/
theorem witness_FtoiTruncatesAndSaturates : isNaN 0x7FC00000#32 = true ∧
    (isFinite 0x4EFFFFFF#32 = true ∧ 0 ≤ toRat 0x4EFFFFFF#32 ∧ toRat 0x4EFFFFFF#32 < 2 ^ 31) ∧
    (isFinite 0xCEFFFFFF#32 = true ∧ toRat 0xCEFFFFFF#32 < 0 ∧ -2 ^ 31 < toRat 0xCEFFFFFF#32) ∧
    (isNaN 0x4F000000#32 = false ∧ 2 ^ 31 ≤ toRat 0x4F000000#32) ∧
    (isNaN 0xCF000000#32 = false ∧ toRat 0xCF000000#32 ≤ -2 ^ 31) := by
  refine ⟨by decide, ⟨by decide, ?_, ?_⟩, ⟨by decide, ?_, ?_⟩, ⟨by decide, ?_⟩, by decide, ?_⟩ <;>
    norm_num [toRat_eq, signBit_eq, magField_eq, magVal]

theorem witness_IntegerConversionsAreExact : 2 ^ 24 ≤ 2 ^ 24 ∧ isFinite 0x4F000000#32 = true ∧ 0 ≤ toRat 0x4F000000#32 :=
  ⟨le_rfl, by decide, by norm_num [toRat_eq, signBit_eq, magField_eq, magVal]⟩

theorem witness_ClampReturnsTheFraction : flt 0x80000001#32 0x00000000#32 = true ∧ fgt 0x3F800001#32 0x3F800000#32 = true ∧
    isNaN 0x7FC00000#32 = true ∧ isFinite 0x3F000000#32 = true ∧ 0 ≤ toRat 0x3F000000#32 ∧ toRat 0x3F000000#32 ≤ 1 := by
  rw [toRat_half.1]; exact ⟨by decide, by decide, by decide, by decide, by norm_num, by norm_num⟩

theorem witness_EmodIsTheUniqueRemainder : (0 : Int) < 8 ∧ (0 : Int) ≤ 7 ∧ (7 : Int) < 8 ∧ (8 : Int) ∣ -9 - 7 := by decide

theorem witness_StepKeepsInvariant : ∃ s t : State, Legal legalSine ∧ Inv legalSine s ∧ s.host = [.command 0x0200000000#40] ∧
    stepWith zeroSine s = .next t :=
  ⟨{ s8 with host := [.command 0x0200000000#40] }, _, legal_legalSine,
    ⟨inv_s8.canonical, inv_s8.within, inv_s8.rate, inv_s8.length, inv_s8.cursors, inv_s8.range, inv_s8.offset,
      inv_s8.presented, inv_s8.answered⟩, rfl, processWith_next zeroSine (s := s8) rfl (by decide)⟩

theorem witness_NoRunFaults : Legal legalSine ∧ Inv legalSine s8 := ⟨legal_legalSine, inv_s8⟩

theorem witness_RejectedCommandChangesNothing : ∃ t : State, runWordWith zeroSine 0x0300000000#40 s8 = .next t ∧
    t.rsp = some 0x100000000#36 ∧ responseStatus 0x100000000#36 ≠ 0x0#4 := ⟨_, rfl, by decide, by decide⟩

/- An accepted INIT and a rejected word. -/
theorem witness_FlagsRecordWhatHappened :
    (∃ t : State, runWordWith zeroSine 0x0141000000#40 State.reset = .next t ∧ t.rsp = some 0x000000000#36) ∧
    ∃ t : State, runWordWith zeroSine 0x0300000000#40 s8 = .next t ∧ t.rsp = some 0x100000000#36 :=
  ⟨⟨(State.reset.initialise zeroSine 0x41000000#32).respond .ok 0#32, by
      rw [runWordWith, show decode 0x0141000000#40 = .ok (.init 0x41000000#32) by decide]
      exact initWith_legal zeroSine State.reset (by decide), by decide⟩, _, rfl, by decide⟩

theorem toRat_pred : toRat 0x40C90FDA#32 = 13176794 / 2 ^ 21 := by norm_num [toRat_eq, signBit_eq, magField_eq, magVal]

/- The largest phase in range. -/
theorem range_pred : PhaseInRange 0x40C90FDA#32 :=
  ⟨by decide, by rw [toRat_pred]; norm_num, by rw [toRat_pred, toRat_TWO_PI]; norm_num⟩

theorem range_zero : PhaseInRange plusZero :=
  ⟨by decide, by simp, by rw [toRat_plusZero, toRat_TWO_PI]; norm_num⟩

theorem witness_WrapIsExact : PhaseInRange 0x40C90FDA#32 ∧
    fge (fadd (fun _ _ => (false, 0)) 0x40C90FDA#32 0x40C90FDA#32) TWO_PI = true := ⟨range_pred, by decide⟩

/- At 48000 Hz from the largest phase: the increments are those of V2. -/
theorem range_increment : PhaseInRange 0x3C6BE9A5#32 := by
  have h : toRat 0x3C6BE9A5#32 = 15460773 / 2 ^ 30 := by norm_num [toRat_eq, signBit_eq, magField_eq, magVal]
  exact ⟨by decide, by rw [h]; norm_num, by rw [h, toRat_TWO_PI]; norm_num⟩

theorem witness_PhasesStayInRange : ∃ s t : State, s.initialized = true ∧ execWith zeroSine .process s = .next t ∧
    PhaseInRange s.carrierPhase ∧ PhaseInRange (carrierIncrement zeroSine s) ∧ s.syncEnabled = false ∧
    PhaseInRange s.modulatorPhase ∧ PhaseInRange (modulatorIncrement zeroSine s) := by
  refine ⟨{ ready 0x473B8000#32 with carrierPhase := 0x40C90FDA#32, syncEnabled := false }, _, rfl,
    processWith_next zeroSine rfl (by decide), range_pred, ?_, rfl, range_zero, ?_⟩
  · rw [show carrierIncrement zeroSine { ready 0x473B8000#32 with carrierPhase := 0x40C90FDA#32, syncEnabled := false }
      = 0x3C6BE9A5#32 by decide]
    exact range_increment
  · rw [show modulatorIncrement zeroSine { ready 0x473B8000#32 with carrierPhase := 0x40C90FDA#32, syncEnabled := false }
      = 0x3C6BE9A5#32 by decide]
    exact range_increment

/- The smallest rate of the claim. -/
theorem witness_DefaultRunKeepsCarrierInRange : Legal legalSine ∧ initOperandLegal legalSine.bufMax 0x42DE0000#32 = true ∧
    111 ≤ toRat 0x42DE0000#32 :=
  ⟨legal_legalSine, by decide, by norm_num [toRat_eq, signBit_eq, magField_eq, magVal]⟩

theorem unit_zero : UnitSample plusZero := ⟨by decide, by simp, by simp⟩

/- With the carrier included. Without it, the same state but for that register. -/
theorem witness_OutputStaysInRange : ∃ (s t : State) (r : ResponseWord), Legal legalSine ∧ Inv legalSine s ∧
    s.initialized = true ∧ s.includeCarrier = true ∧ (∀ i, UnitSample (s.buffer.read i)) ∧
    execWith zeroSine .process s = .next t ∧ isFinite t.carrierPhase = true ∧ t.rsp = some r :=
  ⟨{ s8 with includeCarrier := true }, _, _, legal_legalSine,
    ⟨inv_s8.canonical, inv_s8.within, inv_s8.rate, inv_s8.length, inv_s8.cursors, inv_s8.range, inv_s8.offset,
      inv_s8.presented, inv_s8.answered⟩, rfl, rfl, fun _ => unit_zero, processWith_next zeroSine rfl (by decide),
    (by decide : isFinite (nextCarrierPhase zeroSine s8) = true), rfl⟩

/-- Eight samples written, all +0.0, and the cursors back where they began. -/
theorem delayLine_eight : DelayLine (List.replicate 8 plusZero) s8 where
  canonical := by decide
  length := by decide
  writeCursor := by decide
  readCursor := by decide
  written := fun k hk _ => by
    have h : ∀ k < 8, (List.replicate 8 plusZero).getD k plusZero = plusZero := by decide
    rw [h k (by simpa using hk)]; rfl
  unwritten := fun _ _ => rfl

/- A PROCESS word on such a buffer, and an accepted INIT on an uninitialised core. -/
theorem witness_BufferIsADelayLine :
    (∃ s t : State, stepWith legalSine s = .next t ∧ t.initialized = true ∧ s.initialized = true ∧
      DelayLine (List.replicate 8 plusZero) s ∧ s.host = [.command 0x0200000000#40]) ∧
    ∃ s t : State, stepWith legalSine s = .next t ∧ t.initialized = true ∧ s.initialized = false :=
  ⟨⟨{ s8 with host := [.command 0x0200000000#40] }, _, processWith_next legalSine (s := s8) rfl (by decide), rfl, rfl,
      ⟨delayLine_eight.1, delayLine_eight.2, delayLine_eight.3, delayLine_eight.4, delayLine_eight.5, delayLine_eight.6⟩, rfl⟩,
    { State.reset with host := [.command 0x0141000000#40] }, (State.reset.initialise legalSine 0x41000000#32).respond .ok 0#32,
    (by rw [stepWith, portStep_command (w := 0x0141000000#40) (rest := []) _ rfl rfl, runWordWith,
          show decode 0x0141000000#40 = .ok (.init 0x41000000#32) by decide]
        exact initWith_legal legalSine State.reset (by decide)), rfl, rfl⟩

/- On both sides of L: after eight samples, and after none. -/
theorem witness_DefaultOffsetIsOneSecondOfDelay : ∃ t, s8.initialized = true ∧ DelayLine (List.replicate 8 plusZero) s8 ∧
    DelayLine [] s8 ∧ execWith zeroSine .process s8 = .next t ∧ emod (readOffset zeroSine s8) s8.bufLen = 1 ∧
    s8.includeCarrier = false :=
  (completes (p := zeroSine) (s := s8) rfl (by decide)).imp fun _ h =>
    ⟨rfl, delayLine_eight, ⟨by decide, by decide, by decide, by decide, fun _ hk _ => absurd hk (by simp), fun _ _ => rfl⟩,
      h, by decide, rfl⟩

end Sys2Proof.Tests
end

/-! The proofs of the statements about 00_scope.md: the parameters (R5, R8), the number format and its operations (R6, R7),
and the conversions (R9 to R12). -/

namespace Sys2Proof.Machine

open Sys2Proof.Config (Params NanDraw)

/-! ### The core's parameters (R5, R8) -/

/-- Settles O15. S1, S2 and S3 are what the type of the core's free sine generator holds. -/
theorem coreParametersAreLegal : Obligations.CoreParametersAreLegal :=
  have capacity : 2 ≤ coreParams.bufMax ∧ coreParams.bufMax ≤ 2 ^ 24 := by decide
  ⟨capacity.1, capacity.2, coreSine.range, coreSine.zero, coreSine.err_nonneg, coreSine.err_lt_one, coreSine.accurate⟩

theorem exec_eq_execWith (i : Instr) (s : State) : exec i s = execWith coreParams i s := by
  cases i with
  | init _ | process | setcf _ | setmf _ | setmr _ | setmo _ | setsync _ | setincl _ => rfl

theorem runWord_eq_runWordWith : runWord = runWordWith coreParams := by
  funext w s
  rw [runWord, runWordWith]
  cases decode w with
  | ok i => exact exec_eq_execWith i s
  | error _ => rfl

/-- Settles O14, a command at a time, and for the step through the word the port runs. -/
theorem coreIsAnInstance : Obligations.CoreIsAnInstance :=
  ⟨exec_eq_execWith, fun s => by rw [step, stepWith, runWord_eq_runWordWith]⟩

/-- What an accepted PROCESS leaves where it wrote: the sine of the carrier phase it leaves (R106, R114). -/
theorem process_writes_sine_of_phase {p : Params} {s t : State} (hi : s.initialized = true) (hwf : s.buffer.wf = true)
    (h : execWith p .process s = .next t) : t.buffer.read s.writeIndex = p.sin t.carrierPhase := by
  rcases processWith_cases p h with ⟨hn, -⟩ | ⟨-, -, rfl⟩
  · rw [hi] at hn; cases hn
  · calc (s.buffer.write s.writeIndex (carrierSample p s)).read s.writeIndex
        = carrierSample p s := by rw [Memory.read_write hwf, if_pos rfl]
      _ = p.sin (nextCarrierPhase p s) := rfl

/-- Settles O37: S3 at the phase whose sine is stored. -/
theorem carrierSampleTracksTheSine : Obligations.CarrierSampleTracksTheSine := by
  rintro p s t ⟨-, -, -, -, -, -, accurate⟩ hi hwf h hfin
  rw [process_writes_sine_of_phase hi hwf h]
  exact accurate _ hfin

/-! ### The four operations on finite operands (R6) -/

/-- The exact result rounded once is all that R6 asks of a result. -/
theorem Rounds.correct {v : ℚ} {x : Binary32} (h : Rounds v x) :
    isNaN x = false ∧ (isInf x = true ↔ (2 : ℚ) ^ 128 - 2 ^ 103 ≤ |v|) ∧
      (0 < v → signBit x = false) ∧ (v < 0 → signBit x = true) ∧
      (isFinite x = true → ∀ c : Binary32, |toRat x - v| ≤ |toRat c - v| ∧
        (|toRat x - v| = |toRat c - v| → toRat c ≠ toRat x → x.toNat % 2 = 0)) :=
  ⟨h.not_nan, h.isInf_iff_abs, h.sign_of_pos, h.sign_of_neg, fun hx _ => h.nearest hx⟩

/-- Settles O41: each operation rounds its exact result once. -/
theorem arithmeticRoundsToNearestEven : Obligations.ArithmeticRoundsToNearestEven := by
  intro draw a b ha hb correct
  exact ⟨(fadd_rounds draw ha hb).correct, (fsub_rounds draw ha hb).correct, (fmul_rounds draw ha hb).correct,
    fun h0 => (fdiv_rounds draw ha hb h0).correct⟩

/-! ### The operations on special values (R6, log entry 7) -/

theorem not_isNaN_of_inf {x : Binary32} (h : isInf x = true) : isNaN x = false := by
  rw [isInf_iff] at h
  rw [← Bool.not_eq_true, isNaN_iff]; omega

theorem negate_inf {x : Binary32} (h : isInf x = true) : negate x = infinityOf (!signBit x) := by
  rw [negate, (isInf_iff x).mp h, infinityOf]

theorem toRat_eq_zero_iff (x : Binary32) : toRat x = 0 ↔ significand x = 0 := by
  rw [toRat_eq, significand_eq_zero, ← magVal_eq_zero]
  cases signBit x <;> simp

theorem fsub_nan (draw : NanDraw) {a b : Binary32} (h : isNaN a = true ∨ isNaN b = true) :
    fsub draw a b = nanOf (draw a (negate b)) :=
  fadd_nan draw (by rwa [isNaN_negate])

section Infinities

variable (draw : NanDraw) {a b : Binary32}

/-! #### Sums and differences -/

theorem fadd_inf_opposite (ha : isInf a = true) (hb : isInf b = true) (hs : signBit a ≠ signBit b) :
    fadd draw a b = nanOf (draw a b) := by
  simp [fadd, ha, hb, not_isNaN_of_inf, hs]

theorem fadd_inf_same (ha : isInf a = true) (hb : isInf b = true) (hs : signBit a = signBit b) :
    fadd draw a b = a := by
  simp [fadd, ha, hb, not_isNaN_of_inf, hs]

theorem fadd_inf_finite (ha : isInf a = true) (hb : isFinite b = true) : fadd draw a b = a := by
  simp [fadd, ha, not_isNaN_of_inf, not_isNaN_of_finite hb, not_isInf_of_finite hb]

theorem fadd_finite_inf (ha : isInf a = true) (hb : isFinite b = true) : fadd draw b a = a := by
  simp [fadd, ha, not_isNaN_of_inf, not_isNaN_of_finite hb, not_isInf_of_finite hb]

theorem fsub_inf_same (ha : isInf a = true) (hb : isInf b = true) (hs : signBit a = signBit b) :
    fsub draw a b = nanOf (draw a (negate b)) :=
  fadd_inf_opposite draw ha (by rw [isInf_negate, hb]) (by simp [signBit_negate, hs])

theorem fsub_inf_opposite (ha : isInf a = true) (hb : isInf b = true) (hs : signBit a ≠ signBit b) :
    fsub draw a b = a :=
  fadd_inf_same draw ha (by rw [isInf_negate, hb]) (by rw [signBit_negate, Bool.eq_not_iff]; exact hs)

theorem fsub_inf_finite (ha : isInf a = true) (hb : isFinite b = true) : fsub draw a b = a :=
  fadd_inf_finite draw ha (by rw [isFinite_negate, hb])

theorem fsub_finite_inf (ha : isInf a = true) (hb : isFinite b = true) : fsub draw b a = infinityOf (!signBit a) := by
  rw [fsub, fadd_finite_inf draw (by rw [isInf_negate, ha]) hb, negate_inf ha]

/-! #### Products -/

/-- One equation for a finite and an infinite second operand: an infinity's significand is not zero. -/
theorem fmul_inf (ha : isInf a = true) (hb : isNaN b = false) :
    fmul draw a b = if significand b = 0 then nanOf (draw a b) else infinityOf (signBit a != signBit b) := by
  simp [fmul, ha, hb, not_isNaN_of_inf]

theorem fmul_finite_inf (ha : isInf a = true) (hb : isFinite b = true) :
    fmul draw b a = if significand b = 0 then nanOf (draw b a) else infinityOf (signBit a != signBit b) := by
  simp [fmul, ha, not_isNaN_of_inf, not_isNaN_of_finite hb, not_isInf_of_finite hb, bne_comm (a := signBit b)]

theorem significand_inf (h : isInf b = true) : significand b ≠ 0 := by
  rw [ne_eq, significand_eq_zero, (isInf_iff b).mp h]
  decide

/-! #### Quotients -/

theorem fdiv_inf_inf (ha : isInf a = true) (hb : isInf b = true) : fdiv draw a b = nanOf (draw a b) := by
  simp [fdiv, ha, hb, not_isNaN_of_inf]

theorem fdiv_inf_finite (ha : isInf a = true) (hb : isFinite b = true) :
    fdiv draw a b = infinityOf (signBit a != signBit b) := by
  simp [fdiv, ha, not_isNaN_of_inf, not_isNaN_of_finite hb, not_isInf_of_finite hb]

theorem fdiv_finite_inf (ha : isInf a = true) (hb : isFinite b = true) :
    fdiv draw b a = zeroOf (signBit a != signBit b) := by
  simp [fdiv, ha, not_isNaN_of_inf, not_isNaN_of_finite hb, not_isInf_of_finite hb, bne_comm (a := signBit b)]

theorem fdiv_zero (ha : isFinite a = true) (hb : isFinite b = true) (h0 : significand b = 0) :
    fdiv draw a b = if significand a = 0 then nanOf (draw a b) else infinityOf (signBit a != signBit b) := by
  simp [fdiv, not_isNaN_of_finite ha, not_isNaN_of_finite hb, not_isInf_of_finite ha, not_isInf_of_finite hb, h0]

end Infinities

/-- Settles O42: the four pairs of classes, each by the law of each operation on it. -/
theorem arithmeticOnSpecialValues : Obligations.ArithmeticOnSpecialValues := by
  intro draw a b
  refine ⟨fun hn => ?nan, fun ha hb => ?infinities, fun ha hb => ?infinityAndFinite, fun ha hb h0 => ?zeroDivisor⟩
  case nan =>
    rw [fadd_nan draw hn, fsub_nan draw hn, fmul_nan draw hn, fdiv_nan draw hn]
    exact ⟨isNaN_nanOf _, isNaN_nanOf _, isNaN_nanOf _, isNaN_nanOf _⟩
  case infinities =>
    refine ⟨fun hs => ⟨?_, fsub_inf_opposite draw ha hb hs⟩, fun hs => ⟨fadd_inf_same draw ha hb hs, ?_⟩, ?_, ?_⟩
    · rw [fadd_inf_opposite draw ha hb hs]; exact isNaN_nanOf _
    · rw [fsub_inf_same draw ha hb hs]; exact isNaN_nanOf _
    · rw [fmul_inf draw ha (not_isNaN_of_inf hb), if_neg (significand_inf hb)]; rfl
    · rw [fdiv_inf_inf draw ha hb]; exact isNaN_nanOf _
  case infinityAndFinite =>
    have left := fmul_inf draw ha (not_isNaN_of_finite hb)
    have right := fmul_finite_inf draw ha hb
    refine ⟨fadd_inf_finite draw ha hb, fadd_finite_inf draw ha hb, fsub_inf_finite draw ha hb,
      fsub_finite_inf draw ha hb, fun h0 => ?_, fun h0 => ?_, fdiv_inf_finite draw ha hb, fdiv_finite_inf draw ha hb⟩
    · rw [toRat_eq_zero_iff] at h0
      rw [left, right, if_pos h0, if_pos h0]
      exact ⟨isNaN_nanOf _, isNaN_nanOf _⟩
    · rw [ne_eq, toRat_eq_zero_iff] at h0
      rw [left, right, if_neg h0, if_neg h0]
      exact ⟨rfl, rfl⟩
  case zeroDivisor =>
    rw [toRat_eq_zero_iff] at h0
    rw [fdiv_zero draw ha hb h0, ne_eq, toRat_eq_zero_iff]
    refine ⟨fun hz => ?_, fun hz => ?_⟩
    · rw [if_pos hz]; exact isNaN_nanOf _
    · rw [if_neg hz]; rfl

/-! ### Comparisons (R6) -/

theorem flt_nan {a b : Binary32} (h : isNaN a = true ∨ isNaN b = true) : flt a b = false := by
  rcases h with h | h <;> simp [flt, h]

theorem fgt_nan {a b : Binary32} (h : isNaN a = true ∨ isNaN b = true) : fgt a b = false := by
  rcases h with h | h <;> simp [fgt, h]

/-- Settles O43: the order of the keys is that of the values. -/
theorem comparisonsAreExact : Obligations.ComparisonsAreExact := by
  refine fun a b => ⟨fun ha hb => ?_, fun hn => ⟨fge_nan hn, flt_nan hn, fgt_nan hn⟩⟩
  rw [fge_of_finite ha hb, flt_of_finite ha hb, fgt_of_finite ha hb]
  exact ⟨decide_eq_true_iff, decide_eq_true_iff, decide_eq_true_iff⟩

/-! ### Conversions (R9, R10) -/

section FTOI

variable {x : Binary32}

theorem FTOI_floor (hn : isNaN x = false) (h0 : 0 ≤ toRat x) (h1 : toRat x < 2 ^ 31) : FTOI x = ⌊toRat x⌋ := by
  have below : ⌊toRat x⌋ < 2 ^ 31 := Int.floor_lt.mpr (by exact_mod_cast h1)
  have nonneg := Int.floor_nonneg.mpr h0
  rw [FTOI_value hn, if_pos h0]
  omega

theorem FTOI_ceil (hn : isNaN x = false) (h0 : toRat x < 0) (h1 : -2 ^ 31 < toRat x) : FTOI x = ⌈toRat x⌉ := by
  have above : -2 ^ 31 < ⌈toRat x⌉ := Int.lt_ceil.mpr (by exact_mod_cast h1)
  have nonpos : ⌈toRat x⌉ ≤ 0 := Int.ceil_le.mpr (by exact_mod_cast h0.le)
  rw [FTOI_value hn, if_neg h0.not_ge]
  omega

theorem FTOI_saturates_above (hn : isNaN x = false) (h : 2 ^ 31 ≤ toRat x) : FTOI x = 2147483647 := by
  have above : 2 ^ 31 ≤ ⌊toRat x⌋ := Int.le_floor.mpr (by exact_mod_cast h)
  rw [FTOI_value hn, if_pos (le_trans (by norm_num) h)]
  omega

theorem FTOI_saturates_below (hn : isNaN x = false) (h : toRat x ≤ -2 ^ 31) : FTOI x = -2147483648 := by
  have below : ⌈toRat x⌉ ≤ -2 ^ 31 := Int.ceil_le.mpr (by exact_mod_cast h)
  rw [FTOI_value hn, if_neg (not_le.mpr (lt_of_le_of_lt h (by norm_num)))]
  omega

end FTOI

/-- Settles O44, a range of R9 at a time. -/
theorem ftoiTruncatesAndSaturates : Obligations.FtoiTruncatesAndSaturates := fun _ =>
  ⟨FTOI_nan, fun hf => FTOI_floor (not_isNaN_of_finite hf), fun hf => FTOI_ceil (not_isNaN_of_finite hf),
    FTOI_saturates_above, FTOI_saturates_below, by decide, by decide, by decide⟩

/-- Settles O45. -/
theorem integerConversionsAreExact : Obligations.IntegerConversionsAreExact :=
  ⟨fun _ => ITOF_exact, fun _ _ => FLOORI_floor⟩

/-! ### The clamp (R11) -/

theorem clamp01_below {x : Binary32} (h : flt x plusZero = true) : clamp01 x = plusZero := by
  rw [clamp01, if_pos h]

theorem clamp01_above {x : Binary32} (h0 : flt x plusZero = false) (h1 : fgt x one = true) : clamp01 x = one := by
  rw [clamp01, h0, if_neg Bool.false_ne_true, if_pos h1]

theorem clamp01_inside {x : Binary32} (h0 : flt x plusZero = false) (h1 : fgt x one = false) : clamp01 x = x := by
  rw [clamp01, h0, h1, if_neg Bool.false_ne_true, if_neg Bool.false_ne_true]

theorem flt_plusZero_iff {x : Binary32} (h : isFinite x = true) : flt x plusZero = true ↔ toRat x < 0 := by
  rw [flt_of_finite h finite_plusZero, toRat_plusZero, decide_eq_true_iff]

theorem fgt_one_iff {x : Binary32} (h : isFinite x = true) : fgt x one = true ↔ 1 < toRat x := by
  rw [fgt_of_finite h finite_one, toRat_one, decide_eq_true_iff]

theorem clamp01_nan {x : Binary32} (h : isNaN x = true) : clamp01 x = x :=
  clamp01_inside (flt_nan (.inl h)) (fgt_nan (.inl h))

theorem clamp01_fraction {x : Binary32} (h : isFinite x = true) (h0 : 0 ≤ toRat x) (h1 : toRat x ≤ 1) :
    clamp01 x = x := by
  refine clamp01_inside ?_ ?_
  · rw [← Bool.not_eq_true, flt_plusZero_iff h]; exact h0.not_gt
  · rw [← Bool.not_eq_true, fgt_one_iff h]; exact h1.not_gt

/-- Settles O46: the three outcomes of the two tests, and what the tests are on the values R11 names. -/
theorem clampReturnsTheFraction : Obligations.ClampReturnsTheFraction := fun _ =>
  ⟨clamp01_below, clamp01_above, clamp01_inside, fun h => ⟨flt_plusZero_iff h, fgt_one_iff h⟩, clamp01_nan,
    clamp01_fraction, by decide⟩

/-! ### The remainder (R12) -/

/-- Two remainders of one number are congruent, and both are below the modulus. -/
theorem eq_emod_of_dvd_sub {a m r : Int} (h0 : 0 ≤ r) (h1 : r < m) (hd : m ∣ a - r) : r = emod a m :=
  calc r = r % m := (Int.emod_eq_of_lt h0 h1).symm
    _ = a % m := Int.modEq_iff_dvd.mpr hd

/-- Settles O47. -/
theorem emodIsTheUniqueRemainder : Obligations.EmodIsTheUniqueRemainder := fun a _ hm =>
  ⟨⟨Int.emod_nonneg a hm.ne', Int.emod_lt_of_pos a hm, Int.dvd_self_sub_emod⟩,
    fun _ => eq_emod_of_dvd_sub, by decide, by decide, by decide⟩

/-! ### `TWO_PI` (R7) -/

/-- Between two patterns whose keys are neighbours lies no value. -/
theorem toRat_le_or_ge {a b : Binary32} (h : orderKey b = orderKey a + 1) (c : Binary32) :
    toRat c ≤ toRat a ∨ toRat b ≤ toRat c := by
  rw [toRat_le_iff, toRat_le_iff]; omega

/-- The pattern one below `TWO_PI`. -/
def predTwoPi : Binary32 := 0x40C90FDA#32

theorem toRat_predTwoPi : toRat predTwoPi = 13176794 / 2 ^ 21 := by
  norm_num [toRat_eq, signBit_eq, magField_eq, predTwoPi, magVal]

theorem orderKey_TWO_PI : orderKey TWO_PI = orderKey predTwoPi + 1 := by decide

theorem TWO_PI_excess : (1.74e-7 : ℝ) < ((toRat TWO_PI : ℚ) : ℝ) - 2 * Real.pi ∧
    ((toRat TWO_PI : ℚ) : ℝ) - 2 * Real.pi < (1.76e-7 : ℝ) := by
  have lower := Real.pi_gt_d20
  have upper := Real.pi_lt_d20
  rw [toRat_TWO_PI]
  push_cast
  constructor
  · linarith
  · linarith

/-- `TWO_PI` exceeds the real 2π by less than half of 2^-21, the distance to the pattern below. -/
theorem TWO_PI_nearest (c : Binary32) :
    |((toRat TWO_PI : ℚ) : ℝ) - 2 * Real.pi| ≤ |((toRat c : ℚ) : ℝ) - 2 * Real.pi| := by
  obtain ⟨positive, small⟩ := TWO_PI_excess
  have gap : ((toRat predTwoPi : ℚ) : ℝ) = ((toRat TWO_PI : ℚ) : ℝ) - 1 / 2 ^ 21 := by
    rw [toRat_predTwoPi, toRat_TWO_PI]; norm_num
  rw [abs_of_nonneg (by linarith)]
  rcases toRat_le_or_ge orderKey_TWO_PI c with h | h
  · have below : ((toRat c : ℚ) : ℝ) ≤ ((toRat predTwoPi : ℚ) : ℝ) := by exact_mod_cast h
    rw [abs_sub_comm]
    exact le_trans (by linarith) (le_abs_self _)
  · have above : ((toRat TWO_PI : ℚ) : ℝ) ≤ ((toRat c : ℚ) : ℝ) := by exact_mod_cast h
    exact le_trans (by linarith) (le_abs_self _)

/-- Settles O48: every other value is at or beyond the pattern below, which is farther from 2π, or above `TWO_PI`. -/
theorem twoPiIsTheNearest : Obligations.TwoPiIsTheNearest :=
  ⟨rfl, toRat_TWO_PI, TWO_PI_nearest, TWO_PI_excess⟩

end Sys2Proof.Machine

/-! The proofs of the statements about 10_state.md: the flags (R21, R22, R38), the registers after reset (R41), the legal
values of every register (R20 to R33, R39), what PROCESS writes (R42) and the range of the phases (R40). -/

namespace Sys2Proof.Machine

open Sys2Proof.Config (Params NanDraw)

/-! ### What a command word can do, said once -/

/-- The one register a setter writes (R136), and SETMR's draw. -/
def State.setterWrite (p : Params) : Instr → State → State
  | .setcf hz, s => { s with carrierFreqHz := hz }
  | .setmf hz, s => { s with modFreqHz := hz }
  | .setmr x, s =>
    { s with
      modRangeSamples := fractionOfBuffer (p.nan s.draws .rangeProduct) x s.bufLen
      draws := s.draws + 1 }
  | .setmo x, s =>
    { s with modOffsetSamples := (FTOI (fractionOfBuffer (p.nan s.draws .offsetProduct) x s.bufLen)).toNat }
  | .setsync b, s => { s with syncEnabled := b }
  | .setincl b, s => { s with includeCarrier := b }
  | .init _, s => s
  | .process, s => s

theorem execWith_eq_setter (p : Params) {i : Instr} (h : isSetter i = true) (s : State) :
    execWith p i s = setter s (State.setterWrite p i) := by
  cases i with
  | init _ | process => cases h
  | setcf _ | setmf _ | setmr _ | setmo _ | setsync _ | setincl _ => rfl

@[simp] theorem setterWrite_initialized (p : Params) (i : Instr) (s : State) :
    (s.setterWrite p i).initialized = s.initialized := by
  cases i with
  | init _ | process | setcf _ | setmf _ | setmr _ | setmo _ | setsync _ | setincl _ => rfl

@[simp] theorem setterWrite_errSticky (p : Params) (i : Instr) (s : State) :
    (s.setterWrite p i).errSticky = s.errSticky := by
  cases i with
  | init _ | process | setcf _ | setmf _ | setmr _ | setmo _ | setsync _ | setincl _ => rfl

/-- The state an accepted PROCESS leaves before its response (R100). -/
def State.processed (p : Params) (s : State) : State :=
  State.advance p s { s with buffer := s.buffer.write s.writeIndex (carrierSample p s) }

/-- What a command word that is answered has done: it was rejected, or it was an accepted INIT, setter or PROCESS. -/
inductive WordEffect (p : Params) (w : CommandWord) (s : State) : State → Prop where
  | rejected (e : Exception) : WordEffect p w s (s.markRejected.respond (.error e) 0#32)
  | initialised {rate : Binary32} (hw : decode w = .ok (.init rate)) (hr : initOperandLegal p.bufMax rate = true) :
      WordEffect p w s ((s.initialise p rate).respond .ok 0#32)
  | registerSet {i : Instr} (hw : decode w = .ok i) (hset : isSetter i = true) (hs : s.initialized = true) :
      WordEffect p w s ((s.setterWrite p i).respond .ok 0#32)
  | processed (hw : decode w = .ok .process) (hs : s.initialized = true) (hc : s.writeIndex < s.bufLen)
      (sample : Binary32) : WordEffect p w s ((s.processed p).respond .ok sample)

section Effects

variable {p : Params} {s t : State} {w : CommandWord}

theorem WordEffect.of_raise {e : Exception} (h : raise e s = .next t) : WordEffect p w s t := by
  obtain rfl := Host.Outcome.next.inj h
  exact .rejected e

theorem WordEffect.of_init {rate : Binary32} (hw : decode w = .ok (.init rate)) (h : execWith p (.init rate) s = .next t) :
    WordEffect p w s t := by
  change initWith p rate s = .next t at h
  rcases Bool.eq_false_or_eq_true (initOperandLegal p.bufMax rate) with hr | hr
  · rw [initWith_legal p s hr] at h
    obtain rfl := Host.Outcome.next.inj h
    exact .initialised hw hr
  · rw [initWith_illegal p s hr] at h
    exact .of_raise h

theorem WordEffect.of_setter {i : Instr} (hw : decode w = .ok i) (hset : isSetter i = true)
    (h : execWith p i s = .next t) : WordEffect p w s t := by
  rw [execWith_eq_setter p hset] at h
  rcases Bool.eq_false_or_eq_true s.initialized with hs | hs
  · rw [setter_initialized hs] at h
    obtain rfl := Host.Outcome.next.inj h
    exact .registerSet hw hset hs
  · rw [setter_uninitialized hs] at h
    exact .of_raise h

/-- Where an initialised PROCESS answers, it is accepted, and the write cursor was in range. -/
theorem process_next (hs : s.initialized = true) (h : execWith p .process s = .next t) :
    s.writeIndex < s.bufLen ∧ ∃ sample, t = (s.processed p).respond .ok sample := by
  rcases processWith_cases p h with ⟨hn, -⟩ | ⟨-, hc, ht⟩
  · rw [hs] at hn; cases hn
  · exact ⟨hc, _, ht⟩

theorem WordEffect.of_process (hw : decode w = .ok .process) (h : execWith p .process s = .next t) :
    WordEffect p w s t := by
  rcases Bool.eq_false_or_eq_true s.initialized with hs | hs
  · obtain ⟨hc, sample, rfl⟩ := process_next hs h
    exact .processed hw hs hc sample
  · rw [execWith_uninitialized p hs (by rintro _ ⟨⟩)] at h
    exact .of_raise h

/-- Whatever word is answered, it has one of the four effects. -/
theorem runWordWith_effect (h : runWordWith p w s = .next t) : WordEffect p w s t := by
  rcases runWordWith_cases p w s with ⟨i, hw, he⟩ | ⟨-, -, he⟩
  · rw [he] at h
    cases i with
    | init rate => exact .of_init hw h
    | process => exact .of_process hw h
    | setcf _ | setmf _ | setmr _ | setmo _ | setsync _ | setincl _ => exact .of_setter hw rfl h
  · rw [he] at h
    exact .of_raise h

end Effects

/-! ### The flags (R21, R22) -/

/-- Settles O53: each of the four effects with the status it answers. -/
theorem flagsRecordWhatHappened : Obligations.FlagsRecordWhatHappened := by
  intro p s t w r h hr
  cases runWordWith_effect h with
  | rejected e =>
    obtain rfl := Option.some.inj hr
    simp [statusCode, exceptionCode_ne]
  | initialised hw _ =>
    obtain rfl := Option.some.inj hr
    simp [statusCode, hw]
  | registerSet _ _ hs =>
    obtain rfl := Option.some.inj hr
    simp [statusCode, hs]
  | processed _ hs _ sample =>
    obtain rfl := Option.some.inj hr
    simp [statusCode, hs, State.processed]

/-! ### Hardware reset (R41, R170, R171) -/

/-- Settles O10: the reset move is hardware reset, whose pins are those of the state right after reset. -/
theorem hardwareResetClearsFlagsAndPort : Obligations.HardwareResetClearsFlagsAndPort :=
  ⟨fun _ _ hm => ⟨_, portStep_reset runWord hm, rfl, rfl, rfl, rfl, rfl⟩, rfl, rfl, rfl⟩

/-! ### What is unspecified after reset cannot be observed (R41) -/

section HiddenAlike

variable {s t : State}

theorem HiddenAlike.withHost (h : HiddenAlike s t) (moves : List HostMove) :
    HiddenAlike { s with host := moves } { t with host := moves } := by
  obtain ⟨hs, ht, herr, hrsp, -, hdel, hdraws⟩ := h
  exact ⟨hs, ht, herr, hrsp, rfl, hdel, hdraws⟩

theorem HiddenAlike.rejected (h : HiddenAlike s t) (e : Exception) :
    HiddenAlike (s.markRejected.respond (.error e) 0#32) (t.markRejected.respond (.error e) 0#32) := by
  obtain ⟨hs, ht, -, -, hhost, hdel, hdraws⟩ := h
  exact ⟨hs, ht, rfl, rfl, hhost, hdel, hdraws⟩

theorem HiddenAlike.deliver (h : HiddenAlike s t) : HiddenAlike s.deliver t.deliver := by
  obtain ⟨hs, ht, herr, hrsp, hhost, hdel, hdraws⟩ := h
  have delivered : s.deliver.delivered = t.deliver.delivered := by
    rw [deliver_delivered, deliver_delivered, hdel, hrsp]
  exact ⟨by simpa, by simpa, by simpa, by simp, by simpa, delivered, by simpa⟩

/-- Hardware reset reads no register that may differ. -/
theorem HiddenAlike.hardwareReset_eq (h : HiddenAlike s t) : s.hardwareReset = t.hardwareReset := by
  obtain ⟨-, -, -, -, hhost, hdel, hdraws⟩ := h
  rw [State.hardwareReset, State.hardwareReset, hhost, hdel, hdraws]

/-- An accepted INIT writes every register that may differ (R90). -/
theorem HiddenAlike.initialise_eq (h : HiddenAlike s t) (p : Params) (rate : Binary32) :
    s.initialise p rate = t.initialise p rate := by
  obtain ⟨-, -, herr, hrsp, hhost, hdel, hdraws⟩ := h
  simp only [State.initialise, State.markInitialized, herr, hrsp, hhost, hdel, hdraws]

theorem HiddenAlike.observed_eq (h : HiddenAlike s t) : observed (.next s) = observed (.next t) := by
  obtain ⟨-, -, herr, hrsp, -, hdel, -⟩ := h
  simp only [observed, outputs, herr, hrsp, hdel]

/-- Both answer next states, which again differ only in what is unspecified after reset, or are equal. -/
def HidesOrSettles (r r' : Result) : Prop :=
  ∃ s' t', r = .next s' ∧ r' = .next t' ∧ (s' = t' ∨ HiddenAlike s' t')

theorem HidesOrSettles.hide {s' t' : State} (h : HiddenAlike s' t') : HidesOrSettles (.next s') (.next t') :=
  ⟨s', t', rfl, rfl, .inr h⟩

theorem HidesOrSettles.settle {s' t' : State} (h : s' = t') : HidesOrSettles (.next s') (.next t') :=
  ⟨s', t', rfl, rfl, .inl h⟩

/-- INIT is the one command that an uninitialised core runs (R152), and its test reads the operand alone (R91). -/
theorem HiddenAlike.execWith (h : HiddenAlike s t) (p : Params) (i : Instr) :
    HidesOrSettles (execWith p i s) (execWith p i t) := by
  have ⟨hs, ht, _⟩ := h
  by_cases hi : ∀ rate, i ≠ .init rate
  · rw [execWith_uninitialized p hs hi, execWith_uninitialized p ht hi]
    exact .hide (h.rejected .notInit)
  · obtain ⟨rate, rfl⟩ := not_forall_not.mp hi
    change HidesOrSettles (initWith p rate s) (initWith p rate t)
    rcases Bool.eq_false_or_eq_true (initOperandLegal p.bufMax rate) with hr | hr
    · rw [initWith_legal p s hr, initWith_legal p t hr]
      exact .settle (by rw [h.initialise_eq])
    · rw [initWith_illegal p s hr, initWith_illegal p t hr]
      exact .hide (h.rejected .badRate)

theorem HiddenAlike.runWordWith (h : HiddenAlike s t) (p : Params) (w : CommandWord) :
    HidesOrSettles (runWordWith p w s) (runWordWith p w t) := by
  rw [Machine.runWordWith, Machine.runWordWith]
  cases decode w with
  | ok i => exact h.execWith p i
  | error _ => exact .hide (h.rejected .illegalCmd)

theorem HiddenAlike.holdCommand (h : HiddenAlike s t) (w : CommandWord) (rest : List HostMove) :
    HidesOrSettles (.next (s.holdCommand w rest)) (.next (t.holdCommand w rest)) := by
  rcases rest with _ | ⟨_ | _ | _, later⟩
  case nil => exact .hide h
  case cons.reset => exact .settle (h.withHost _).hardwareReset_eq
  case cons.command => exact .hide h
  case cons.takeResponse => exact .hide (h.withHost _).deliver

end HiddenAlike

/-- Settles O12: a move of the host at a time. -/
theorem stepHidesOrSettles : Obligations.StepHidesOrSettles := by
  intro p s t h
  change HidesOrSettles (stepWith p s) (stepWith p t)
  have ⟨_, _, _, hrsp, hhost, _, _⟩ := h
  rw [stepWith, stepWith]
  rcases hm : t.host with _ | ⟨_ | w | _, rest⟩ <;> rw [hm] at hhost
  case nil =>
    rw [portStep_idle _ hhost, portStep_idle _ hm]
    exact .hide h
  case cons.reset =>
    rw [portStep_reset _ hhost, portStep_reset _ hm]
    exact .settle (h.withHost rest).hardwareReset_eq
  case cons.takeResponse =>
    rw [portStep_take _ hhost, portStep_take _ hm]
    exact .hide (h.withHost rest).deliver
  case cons.command =>
    rcases hr : t.rsp with _ | r <;> rw [hr] at hrsp
    case none =>
      rw [portStep_command _ hhost hrsp, portStep_command _ hm hr]
      exact (h.withHost rest).runWordWith p w
    case some =>
      rw [portStep_busy _ hhost hrsp, portStep_busy _ hm hr]
      exact h.holdCommand w rest

theorem runWith_succ (p : Params) (n : Nat) {s t : State} (h : stepWith p s = .next t) :
    runWith p (n + 1) s = runWith p n t := by
  rw [runWith, h]

/-- Settles O11, by induction on the number of steps: alike states stay alike until they are equal. -/
theorem unspecifiedRegistersAreUnobservable : Obligations.UnspecifiedRegistersAreUnobservable := by
  intro p n
  induction n with
  | zero => exact fun _ _ h => h.observed_eq
  | succ n ih =>
    intro s t h
    obtain ⟨s', t', hs, ht, settled | hidden⟩ := stepHidesOrSettles p s t h
    · rw [runWith_succ p n hs, runWith_succ p n ht, settled]
    · rw [runWith_succ p n hs, runWith_succ p n ht]
      exact ih s' t' hidden

/-! ### What INIT's test and the products with the buffer length guarantee (R91, R32, R33) -/

theorem initOperandLegal_iff (bufMax : Nat) (rate : Binary32) :
    initOperandLegal bufMax rate = true ↔
      isFinite rate = true ∧ 2 ≤ toRat rate ∧ FLOORI rate ≤ bufMax := by
  simp only [initOperandLegal, Bool.and_eq_true, Bool.not_eq_true', decide_eq_true_eq]
  constructor
  · rintro ⟨⟨⟨hn, hi⟩, hge⟩, hle⟩
    have hf := finite_of_not hn hi
    rw [fge_of_finite hf finite_two, toRat_two, decide_eq_true_eq] at hge
    exact ⟨hf, hge, hle⟩
  · rintro ⟨hf, hge, hle⟩
    refine ⟨⟨⟨not_isNaN_of_finite hf, not_isInf_of_finite hf⟩, ?_⟩, hle⟩
    rw [fge_of_finite hf finite_two, toRat_two, decide_eq_true_eq]
    exact hge

theorem two_le_FLOORI {rate : Binary32} (h : 2 ≤ toRat rate) : 2 ≤ FLOORI rate := by
  have floor := FLOORI_floor (le_trans (by norm_num) h)
  have : 2 ≤ ⌊toRat rate⌋ := Int.le_floor.mpr (by exact_mod_cast h)
  omega

/-- The default range is a value in [0, L]. -/
theorem defaultRange_bounds (p : Params) (draws : Nat) {len : Nat} (h : len ≤ 2 ^ 24) :
    isFinite (defaultRange p draws len) = true ∧ 0 ≤ toRat (defaultRange p draws len) ∧
      toRat (defaultRange p draws len) ≤ len := by
  obtain ⟨hf, hv⟩ := ITOF_exact h
  have rounds := fmul_rounds (p.nan draws .rangeProduct) finite_quarter hf
  have nonneg : (0 : ℚ) ≤ len := by positivity
  rw [toRat_quarter, hv] at rounds
  have bounds := rounds.between finite_plusZero hf (by rw [toRat_plusZero]; linarith) (by rw [hv]; linarith)
  rwa [toRat_plusZero, hv] at bounds

/-- The range a SETMR stores: a NaN, or a value in [0, L]. -/
theorem fractionOfBuffer_range (draw : NanDraw) (x : Binary32) {len : Nat} (h : len ≤ 2 ^ 24) :
    isNaN (fractionOfBuffer draw x len) = true ∨
      (isFinite (fractionOfBuffer draw x len) = true ∧ 0 ≤ toRat (fractionOfBuffer draw x len) ∧
        toRat (fractionOfBuffer draw x len) ≤ len) :=
  (fraction_cases draw x h).imp And.right And.right

/-- The offset a SETMO stores is at most L. -/
theorem FTOI_fractionOfBuffer_le (draw : NanDraw) (x : Binary32) {len : Nat} (h : len ≤ 2 ^ 24) :
    (FTOI (fractionOfBuffer draw x len)).toNat ≤ len := by
  have := FTOI_le ((fractionOfBuffer_range draw x h).imp_right fun ⟨_, _, hle⟩ => hle)
  omega

/-! ### The invariant of the state (R20 to R33, R39, R79, R80) -/

/-- Before INIT the invariant asks for the canonical form and legal responses alone. -/
theorem Inv.of_uninitialized {p : Params} {s : State} (hs : s.initialized = false) (canonical : s.buffer.wf = true)
    (presented : ∀ r, s.rsp = some r → legalResponse r) (answered : ∀ r ∈ s.delivered, legalResponse r) : Inv p s := by
  have vacuous {P : Prop} : s.initialized = true → P := by simp [hs]
  exact ⟨canonical, vacuous, vacuous, vacuous, vacuous, vacuous, vacuous, presented, answered⟩

/-- Settles O50. -/
theorem resetMeetsInvariant : Obligations.ResetMeetsInvariant :=
  fun _ => .of_uninitialized rfl rfl nofun nofun

section Invariant

variable {p : Params} {s : State}

theorem Inv.withHost (h : Inv p s) (moves : List HostMove) : Inv p { s with host := moves } := { h with }

theorem Inv.hardwareReset (h : Inv p s) : Inv p s.hardwareReset :=
  .of_uninitialized rfl rfl nofun h.answered

theorem Inv.markRejected (h : Inv p s) : Inv p s.markRejected := { h with }

theorem Inv.respond (h : Inv p s) (st : Status) (data : BitVec 32) (hd : st ≠ .ok → data = 0#32) :
    Inv p (s.respond st data) :=
  { h with
    presented := by
      rintro r ⟨⟩
      exact legalResponse_word st data hd }

theorem Inv.deliver (h : Inv p s) : Inv p s.deliver := by
  rw [State.deliver]
  split
  next r hr =>
    refine { h with presented := nofun, answered := fun a ha => ?_ }
    rcases List.mem_append.mp ha with ha | ha
    · exact h.answered a ha
    · rw [List.mem_singleton.mp ha]
      exact h.presented r hr
  next => exact h

theorem Inv.bufLen_le (h : Inv p s) (hp : Legal p) (hs : s.initialized = true) : s.bufLen ≤ 2 ^ 24 := by
  obtain ⟨-, -, hle⟩ := h.length hs
  obtain ⟨-, hmax, -⟩ := hp
  exact hle.trans hmax

theorem Inv.initialise (h : Inv p s) (hp : Legal p) {rate : Binary32} (hr : initOperandLegal p.bufMax rate = true) :
    Inv p (s.initialise p rate) := by
  obtain ⟨hf, hge, hle⟩ := (initOperandLegal_iff _ _).mp hr
  obtain ⟨-, hmax, -⟩ := hp
  have two_le := two_le_FLOORI hge
  exact
    { canonical := rfl
      within := fun _ => rfl
      rate := fun _ => ⟨hf, hge⟩
      length := fun _ => ⟨rfl, two_le, hle⟩
      cursors := fun _ => ⟨by simp; omega, by simp; omega, (Nat.mod_eq_of_lt (by simp; omega)).symm⟩
      range := fun _ => .inr (defaultRange_bounds p s.draws (hle.trans hmax))
      offset := fun _ => (by omega : 1 ≤ FLOORI rate)
      presented := h.presented
      answered := h.answered }

theorem Inv.setterWrite (h : Inv p s) (hp : Legal p) (hs : s.initialized = true) (i : Instr) :
    Inv p (s.setterWrite p i) := by
  have hlen := h.bufLen_le hp hs
  cases i with
  | setmr x => exact { h with range := fun _ => fractionOfBuffer_range _ x hlen }
  | setmo x => exact { h with offset := fun _ => FTOI_fractionOfBuffer_le _ x hlen }
  | init _ | process | setcf _ | setmf _ | setsync _ | setincl _ => exact { h with }

/-- Advancing both cursors keeps the read cursor one ahead of the write cursor. -/
theorem CursorInv.processed (h : CursorInv s) : CursorInv (s.processed p) := by
  obtain ⟨hw, hr, hone⟩ := h
  refine ⟨advanceCursor_lt hw, advanceCursor_lt hr, ?_⟩
  calc advanceCursor s.readIndex s.bufLen
      = (s.readIndex + 1) % s.bufLen := advanceCursor_eq_mod hr
    _ = (s.writeIndex + 1 + 1) % s.bufLen := by rw [hone, Nat.mod_add_mod]
    _ = (advanceCursor s.writeIndex s.bufLen + 1) % s.bufLen := by rw [advanceCursor_eq_mod hw, Nat.mod_add_mod]

theorem Inv.processed (h : Inv p s) (hc : s.writeIndex < s.bufLen) : Inv p (s.processed p) :=
  { h with
    canonical := Memory.wf_write h.canonical _ _
    within := fun hs => Memory.within_write _ hc (h.within hs)
    cursors := fun hs => (h.cursors hs).processed }

/-- Each of the four effects of a command word keeps the invariant. -/
theorem Inv.wordEffect (h : Inv p s) (hp : Legal p) {t : State} {w : CommandWord} (he : WordEffect p w s t) :
    Inv p t := by
  cases he with
  | rejected e => exact h.markRejected.respond _ _ fun _ => rfl
  | initialised _ hr => exact (h.initialise hp hr).respond _ _ fun _ => rfl
  | registerSet _ _ hs => exact (h.setterWrite hp hs _).respond _ _ fun _ => rfl
  | processed _ _ hc sample => exact (h.processed hc).respond _ _ (absurd rfl)

end Invariant

/-- Settles O49: whatever the step is, it keeps the invariant. -/
theorem stepKeepsInvariant : Obligations.StepKeepsInvariant := by
  intro p s t hp h ht
  rcases portStep_cases (runWordWith p) s with he | ⟨moves, he⟩ | ⟨moves, he⟩ | ⟨w, rest, -, -, he⟩ <;>
    rw [stepWith, he] at ht
  · obtain rfl := Host.Outcome.next.inj ht
    exact h
  · obtain rfl := Host.Outcome.next.inj ht
    exact (h.withHost moves).hardwareReset
  · obtain rfl := Host.Outcome.next.inj ht
    exact (h.withHost moves).deliver
  · exact (h.withHost rest).wordEffect hp (runWordWith_effect ht)

/-! ### What PROCESS writes (R42, R106, R114) -/

/-- Settles O26: PROCESS writes one entry, and the registers of `State.advance`. -/
theorem processFrame : Obligations.ProcessFrame := by
  intro p s t hs hwf h
  refine ⟨process_writes_sine_of_phase hs hwf h, ?_⟩
  obtain ⟨-, sample, rfl⟩ := process_next hs h
  have elsewhere (a : Nat) (ha : a ≠ s.writeIndex) :
      (s.buffer.write s.writeIndex (carrierSample p s)).read a = s.buffer.read a := by
    rw [Memory.read_write hwf, if_neg ha]
  exact ⟨elsewhere, rfl, rfl, rfl, rfl, rfl, rfl, rfl, rfl, rfl, rfl, rfl, rfl⟩

/-! ### The range of the phases (R40, R119) -/

theorem finite_predTwoPi : isFinite predTwoPi = true := by decide

/-- A value below `TWO_PI` is at most the pattern below it. -/
theorem PhaseInRange.le_predTwoPi {x : Binary32} (h : PhaseInRange x) : toRat x ≤ toRat predTwoPi := by
  obtain ⟨-, -, hlt⟩ := h
  exact (toRat_le_or_ge orderKey_TWO_PI x).resolve_right hlt.not_ge

/-- A rounded result is in [0, `TWO_PI`) where the exact one is at most the pattern below `TWO_PI`. -/
theorem Rounds.phaseInRange {v : ℚ} {x : Binary32} (h : Rounds v x) (h0 : 0 ≤ v) (h1 : v ≤ toRat predTwoPi) :
    PhaseInRange x := by
  obtain ⟨hf, lower, upper⟩ := h.between finite_plusZero finite_predTwoPi (by rwa [toRat_plusZero]) h1
  rw [toRat_plusZero] at lower
  refine ⟨hf, lower, upper.trans_lt ?_⟩
  rw [toRat_predTwoPi, toRat_TWO_PI]
  norm_num

/-- Twice the pattern below `TWO_PI`, the largest sum of two phases in range. -/
def twicePredTwoPi : Binary32 := 0x41490FDA#32

theorem finite_twicePredTwoPi : isFinite twicePredTwoPi = true := by decide

theorem toRat_twicePredTwoPi : toRat twicePredTwoPi = 2 * toRat predTwoPi := by
  rw [toRat_predTwoPi]
  norm_num [toRat_eq, signBit_eq, magField_eq, twicePredTwoPi, magVal]

/-- The sum of two phases in range, wrapped (lines P1b and P3a, P2b and P4a). -/
def wrappedSum (sumDraw wrapDraw : NanDraw) (phase inc : Binary32) : Binary32 :=
  if fge (fadd sumDraw phase inc) TWO_PI then fsub wrapDraw (fadd sumDraw phase inc) TWO_PI
  else fadd sumDraw phase inc

theorem wrappedSum_inRange (d d' : NanDraw) {phase inc : Binary32} (hphase : PhaseInRange phase)
    (hinc : PhaseInRange inc) : PhaseInRange (wrappedSum d d' phase inc) := by
  have phase_le := hphase.le_predTwoPi
  have inc_le := hinc.le_predTwoPi
  obtain ⟨fphase, phase0, -⟩ := hphase
  obtain ⟨finc, inc0, -⟩ := hinc
  obtain ⟨fsum, sum0, sum_le⟩ := (fadd_rounds d fphase finc).between finite_plusZero finite_twicePredTwoPi
    (by rw [toRat_plusZero]; linarith) (by rw [toRat_twicePredTwoPi]; linarith)
  rw [toRat_plusZero] at sum0
  rw [toRat_twicePredTwoPi] at sum_le
  rw [wrappedSum, fge_of_finite fsum finite_TWO_PI]
  split
  case isTrue wraps =>
    rw [decide_eq_true_eq] at wraps
    have gap : toRat predTwoPi ≤ toRat TWO_PI := by rw [toRat_predTwoPi, toRat_TWO_PI]; norm_num
    exact (fsub_rounds d' fsum finite_TWO_PI).phaseInRange (by linarith) (by linarith)
  case isFalse below =>
    rw [decide_eq_true_eq, not_le] at below
    exact ⟨fsum, sum0, below⟩

theorem nextCarrierPhase_eq (p : Params) (s : State) :
    nextCarrierPhase p s =
      wrappedSum (p.nan s.draws .carrierSum) (p.nan s.draws .carrierWrap) s.carrierPhase (carrierIncrement p s) := rfl

/-- With sync off the modulator wraps as the carrier does (R105). -/
theorem nextModulatorPhase_syncOff (p : Params) {s : State} (h : s.syncEnabled = false) :
    nextModulatorPhase p s = wrappedSum (p.nan s.draws .modulatorSum) (p.nan s.draws .modulatorWrap)
      s.modulatorPhase (modulatorIncrement p s) := by
  simp [nextModulatorPhase, syncedModulator, wrappedSum, modulatorSum, h]

/-- Settles O55: each phase is the wrapped sum of itself and its increment. -/
theorem phasesStayInRange : Obligations.PhasesStayInRange := by
  intro p s t hs h
  obtain ⟨-, sample, rfl⟩ := process_next hs h
  refine ⟨fun hphase hinc => ?carrier, fun hsync hphase hinc => ?modulator⟩
  case carrier =>
    change PhaseInRange (nextCarrierPhase p s)
    rw [nextCarrierPhase_eq]
    exact wrappedSum_inRange _ _ hphase hinc
  case modulator =>
    change PhaseInRange (nextModulatorPhase p s)
    rw [nextModulatorPhase_syncOff p hsync]
    exact wrappedSum_inRange _ _ hphase hinc

/-! ### The default run (R40 (a), R90) -/

theorem toRat_hz110 : toRat hz110 = 110 := by
  norm_num [toRat_eq, signBit_eq, magField_eq, hz110, magVal]

/-- 692.0, a bound of the product of `TWO_PI` and 110 with 692 / 111 below `TWO_PI`. -/
def productBound : Binary32 := 0x442D0000#32

theorem finite_productBound : isFinite productBound = true := by decide

theorem toRat_productBound : toRat productBound = 692 := by
  norm_num [toRat_eq, signBit_eq, magField_eq, productBound, magVal]

/-- The increment of the default frequency is in [0, `TWO_PI`) for every rate of at least 111. -/
theorem increment_default_inRange (p : Params) (draws : Nat) {rate : Binary32} (hf : isFinite rate = true)
    (hr : 111 ≤ toRat rate) : PhaseInRange (increment p draws hz110 rate) := by
  obtain ⟨fprod, prod0, prod_le⟩ := (fmul_rounds (p.nan draws .incrementProduct) finite_TWO_PI finite_hz110).between
    finite_plusZero finite_productBound
    (by rw [toRat_plusZero, toRat_TWO_PI, toRat_hz110]; norm_num)
    (by rw [toRat_productBound, toRat_TWO_PI, toRat_hz110]; norm_num)
  rw [toRat_plusZero] at prod0
  rw [toRat_productBound] at prod_le
  have positive : 0 < toRat rate := by linarith
  refine (fdiv_rounds _ fprod hf positive.ne').phaseInRange (div_nonneg prod0 positive.le) ?_
  rw [div_le_iff₀ positive, toRat_predTwoPi]
  linarith

/-- What holds after an accepted INIT and every PROCESS that follows it. -/
structure DefaultRun (rate : Binary32) (s : State) : Prop where
  initialized : s.initialized = true
  frequency : s.carrierFreqHz = hz110
  sampleRate : s.sampleRate = rate
  cursor : s.writeIndex < s.bufLen
  phase : PhaseInRange s.carrierPhase

theorem DefaultRun.booted (p : Params) {rate : Binary32} (h : initOperandLegal p.bufMax rate = true) :
    DefaultRun rate (State.booted p rate) := by
  obtain ⟨-, hge, -⟩ := (initOperandLegal_iff _ _).mp h
  have two_le := two_le_FLOORI hge
  have phase : PhaseInRange plusZero :=
    ⟨finite_plusZero, toRat_plusZero.ge, by rw [toRat_plusZero, toRat_TWO_PI]; norm_num⟩
  exact ⟨rfl, rfl, rfl, (by omega : 0 < FLOORI rate), phase⟩

/-- One PROCESS of the default run, its response taken. -/
theorem DefaultRun.process (p : Params) {rate : Binary32} {s : State} (h : DefaultRun rate s)
    (hf : isFinite rate = true) (hr : 111 ≤ toRat rate) :
    ∃ t, processWith p s = .next t ∧ DefaultRun rate t.deliver := by
  have inc : PhaseInRange (carrierIncrement p s) := by
    rw [carrierIncrement, h.frequency, h.sampleRate]
    exact increment_default_inRange p _ hf hr
  have next := processWith_next p h.initialized h.cursor
  obtain ⟨carrier, -⟩ := phasesStayInRange p s _ h.initialized next
  refine ⟨_, next, ?_⟩
  constructor
  case initialized => simpa using h.initialized
  case frequency => simpa using h.frequency
  case sampleRate => simpa using h.sampleRate
  case cursor => simpa using advanceCursor_lt h.cursor
  case phase => simpa using carrier h.phase inc

theorem DefaultRun.processTimes (p : Params) {rate : Binary32} (hf : isFinite rate = true) (hr : 111 ≤ toRat rate)
    (n : Nat) {s : State} (h : DefaultRun rate s) : ∃ t, processTimes p n s = .next t ∧ DefaultRun rate t := by
  induction n generalizing s with
  | zero => exact ⟨s, rfl, h⟩
  | succ n ih =>
    obtain ⟨t, next, run⟩ := h.process p hf hr
    rw [Machine.processTimes, next]
    exact ih run

/-- Settles O56: the default run keeps its invariant from INIT on. -/
theorem defaultRunKeepsCarrierInRange : Obligations.DefaultRunKeepsCarrierInRange := by
  intro p rate n _ hlegal hr
  obtain ⟨hf, -, -⟩ := (initOperandLegal_iff _ _).mp hlegal
  obtain ⟨t, completes, run⟩ := (DefaultRun.booted p hlegal).processTimes p hf hr n
  exact ⟨t, completes, run.phase⟩

end Sys2Proof.Machine


/-! The proofs of the statements about 20_memory.md: every access to the delay buffer is in range (R51, R57), the buffer is a
delay line of the carrier samples, and its output is the sample the read offset selects (R62). -/

namespace Sys2Proof.Machine

open Sys2Proof.Config (Params)

/-! ### No step stops (R57, R117) -/

section Progress

variable {s : State}

theorem raise_completes (e : Exception) (s : State) : Completes (raise e s) := ⟨_, rfl⟩

theorem setter_completes (s : State) (write : State → State) : Completes (setter s write) := by
  rcases Bool.eq_false_or_eq_true s.initialized with hs | hs
  · exact ⟨_, setter_initialized hs write⟩
  · rw [setter_uninitialized hs]
    exact raise_completes _ s

theorem initWith_completes (p : Params) (rate : Binary32) (s : State) : Completes (initWith p rate s) := by
  rcases Bool.eq_false_or_eq_true (initOperandLegal p.bufMax rate) with hr | hr
  · exact ⟨_, initWith_legal p s hr⟩
  · rw [initWith_illegal p s hr]
    exact raise_completes _ s

theorem processWith_completes (p : Params) (hc : s.initialized = true → s.writeIndex < s.bufLen) :
    Completes (processWith p s) := by
  rcases Bool.eq_false_or_eq_true s.initialized with hs | hs
  · exact ⟨_, processWith_next p hs (hc hs)⟩
  · rw [processWith, whenInitialized_false hs]
    exact raise_completes _ s

/-- PROCESS alone touches the buffer, so a write cursor in range is all that any command needs. -/
theorem execWith_completes (p : Params) (i : Instr) (hc : s.initialized = true → s.writeIndex < s.bufLen) :
    Completes (execWith p i s) := by
  cases i with
  | init rate => exact initWith_completes p rate s
  | process => exact processWith_completes p hc
  | setcf _ | setmf _ | setmr _ | setmo _ | setsync _ | setincl _ =>
    rw [execWith_eq_setter p rfl]
    exact setter_completes s _

theorem runWordWith_completes (p : Params) (w : CommandWord) (hc : s.initialized = true → s.writeIndex < s.bufLen) :
    Completes (runWordWith p w s) := by
  rcases runWordWith_cases p w s with ⟨i, -, he⟩ | ⟨-, -, he⟩ <;> rw [he]
  · exact execWith_completes p i hc
  · exact raise_completes _ s

theorem stepWith_completes (p : Params) (hc : s.initialized = true → s.writeIndex < s.bufLen) :
    Completes (stepWith p s) := by
  rcases portStep_cases (runWordWith p) s with he | ⟨_, he⟩ | ⟨_, he⟩ | ⟨w, rest, -, -, he⟩
  · exact ⟨_, he⟩
  · exact ⟨_, he⟩
  · exact ⟨_, he⟩
  · rw [stepWith, he]
    exact runWordWith_completes p w hc

end Progress

/-- Settles O51, by induction on the length of the run: the invariant keeps the write cursor in range, so a step ends in a
next state, which meets the invariant. -/
theorem noRunFaults : Obligations.NoRunFaults := by
  intro p n
  induction n with
  | zero => exact fun s _ _ => ⟨s, rfl⟩
  | succ n ih =>
    intro s hp hs
    obtain ⟨t, ht⟩ := stepWith_completes p fun hi => (hs.cursors hi).1
    rw [SafeFor, runWith_succ p n ht]
    exact ih t hp (stepKeepsInvariant p s t hp hs ht)

/-! ### The list of samples after a word and after a step -/

section Samples

variable (p : Params) {s : State} (h : List Binary32) {w : CommandWord}

theorem samplesAfter_process (hw : decode w = .ok .process) (hs : s.initialized = true) :
    samplesAfter p w s h = h ++ [carrierSample p s] := by
  simp [samplesAfter, hw, hs]

theorem samplesAfter_init {rate : Binary32} (hw : decode w = .ok (.init rate)) :
    samplesAfter p w s h = if initOperandLegal p.bufMax rate then [] else h := by
  simp [samplesAfter, hw]

theorem samplesAfter_setter {i : Instr} (hw : decode w = .ok i) (hset : isSetter i = true) : samplesAfter p w s h = h := by
  cases i with
  | init _ | process => cases hset
  | setcf _ | setmf _ | setmr _ | setmo _ | setsync _ | setincl _ => simp [samplesAfter, hw]

theorem samplesAfter_illegal {e : DecodeError} (hw : decode w = .error e) : samplesAfter p w s h = h := by
  simp [samplesAfter, hw]

theorem samplesAfterStep_command {rest : List HostMove} (hhost : s.host = .command w :: rest) (hrsp : s.rsp = none) :
    samplesAfterStep p s h = samplesAfter p w { s with host := rest } h := by
  simp [samplesAfterStep, hhost, hrsp]

theorem samplesAfterStep_noCommand (hno : ¬ ∃ w rest, s.host = .command w :: rest ∧ s.rsp = none) :
    samplesAfterStep p s h = h := by
  rw [samplesAfterStep]
  split
  next w rest hhost hrsp => exact absurd ⟨w, rest, hhost, hrsp⟩ hno
  next => rfl

end Samples

/-- What a step has done that leaves the core initialised: it ran a word, or it took none and changed the port alone. A reset
is not among these. -/
theorem stepWith_initialized {p : Params} {s t : State} (h : stepWith p s = .next t) (ht : t.initialized = true) :
    (∃ w rest, s.host = .command w :: rest ∧ s.rsp = none ∧ runWordWith p w { s with host := rest } = .next t) ∨
      (¬ ∃ w rest, s.host = .command w :: rest ∧ s.rsp = none) ∧
        ∃ moves, t = { s with host := moves } ∨ t = { s with host := moves }.deliver := by
  by_cases hcommand : ∃ w rest, s.host = .command w :: rest ∧ s.rsp = none
  · obtain ⟨w, rest, hhost, hrsp⟩ := hcommand
    rw [stepWith, portStep_command _ hhost hrsp] at h
    exact .inl ⟨w, rest, hhost, hrsp, h⟩
  · refine .inr ⟨hcommand, ?_⟩
    rcases portStep_cases (runWordWith p) s with he | ⟨moves, he⟩ | ⟨moves, he⟩ | ⟨w, rest, hhost, hrsp, -⟩
    · exact ⟨s.host, .inl (Host.Outcome.next.inj (h.symm.trans he))⟩
    · obtain rfl := Host.Outcome.next.inj (h.symm.trans he)
      cases ht
    · exact ⟨moves, .inr (Host.Outcome.next.inj (h.symm.trans he))⟩
    · exact absurd ⟨w, rest, hhost, hrsp⟩ hcommand

/-! ### What keeps a delay line (R62) -/

section DelayLine

variable {p : Params} {s t : State} {h : List Binary32} {w : CommandWord}

theorem DelayLine.withHost (hd : DelayLine h s) (moves : List HostMove) : DelayLine h { s with host := moves } :=
  { hd with }

theorem DelayLine.markRejected (hd : DelayLine h s) : DelayLine h s.markRejected := { hd with }

theorem DelayLine.respond (hd : DelayLine h s) (st : Status) (data : BitVec 32) : DelayLine h (s.respond st data) :=
  { hd with }

theorem DelayLine.deliver (hd : DelayLine h s) : DelayLine h s.deliver := by
  rw [State.deliver]
  split
  next => exact { hd with }
  next => exact hd

theorem DelayLine.setterWrite (hd : DelayLine h s) (i : Instr) : DelayLine h (s.setterWrite p i) := by
  cases i with
  | init _ | process | setcf _ | setmf _ | setmr _ | setmo _ | setsync _ | setincl _ => exact { hd with }

/-- INIT clears the buffer and sets the cursors to 0 and 1, and L is at least 2. -/
theorem DelayLine.initialise (p : Params) (s : State) {rate : Binary32} (hr : initOperandLegal p.bufMax rate = true) :
    DelayLine [] (s.initialise p rate) := by
  obtain ⟨-, hge, -⟩ := (initOperandLegal_iff _ _).mp hr
  have two_le := two_le_FLOORI hge
  exact
    { canonical := rfl
      length := two_le
      writeCursor := (Nat.zero_mod _).symm
      readCursor := (Nat.mod_eq_of_lt two_le).symm
      written := nofun
      unwritten := fun _ _ => rfl }

@[simp] theorem processed_bufLen (p : Params) (s : State) : (s.processed p).bufLen = s.bufLen := rfl

theorem mod_ne_of_lt_of_lt_add {k n len : Nat} (h : k < n) (hn : n < k + len) : k % len ≠ n % len := fun heq => by
  have hle := Nat.le_of_dvd (by omega) ((Nat.modEq_iff_dvd' h.le).mp heq)
  omega

/-- The write cursor is where the next sample stands. An older sample of the last L stands elsewhere, since its number
differs by less than L, and so does an entry not yet written. -/
theorem DelayLine.processed (hd : DelayLine h s) : DelayLine (h ++ [carrierSample p s]) (s.processed p) := by
  have hpos : 0 < s.bufLen := by have := hd.length; omega
  have length_next : (h ++ [carrierSample p s]).length = h.length + 1 := List.length_append
  have read (a : Nat) : (s.processed p).buffer.read a =
      if a = h.length % s.bufLen then carrierSample p s else s.buffer.read a := by
    rw [← hd.writeCursor]
    exact Memory.read_write hd.canonical _ a _
  refine
    { canonical := Memory.wf_write hd.canonical _ _
      length := hd.length
      writeCursor := ?_
      readCursor := ?_
      written := fun k hk hlast => ?_
      unwritten := fun j hj => ?_ }
  · calc advanceCursor s.writeIndex s.bufLen
        = (h.length + 1) % s.bufLen := by
          rw [hd.writeCursor, advanceCursor_eq_mod (Nat.mod_lt _ hpos), Nat.mod_add_mod]
      _ = (h ++ [carrierSample p s]).length % s.bufLen := by rw [length_next]
  · calc advanceCursor s.readIndex s.bufLen
        = (h.length + 1 + 1) % s.bufLen := by
          rw [hd.readCursor, advanceCursor_eq_mod (Nat.mod_lt _ hpos), Nat.mod_add_mod]
      _ = ((h ++ [carrierSample p s]).length + 1) % s.bufLen := by rw [length_next]
  · rw [length_next] at hk hlast
    rw [processed_bufLen] at hlast ⊢
    rcases Nat.lt_succ_iff_lt_or_eq.mp hk with hk | rfl
    · have elsewhere : k % s.bufLen ≠ h.length % s.bufLen := mod_ne_of_lt_of_lt_add hk hlast
      rw [read, if_neg elsewhere, hd.written k hk (by omega), List.getD_append _ _ _ _ hk]
    · rw [read, if_pos rfl, List.getD_append_right _ _ _ _ le_rfl, Nat.sub_self, List.getD_cons_zero]
  · rw [length_next] at hj
    have := Nat.mod_le h.length s.bufLen
    rw [read, if_neg (by omega), hd.unwritten j (by omega)]

/-- Whatever word runs on an initialised core, it leaves a delay line of the samples it leaves. -/
theorem DelayLine.after_word (hd : DelayLine h s) (hs : s.initialized = true) (ht : runWordWith p w s = .next t) :
    DelayLine (samplesAfter p w s h) t := by
  rcases runWordWith_cases p w s with ⟨i, hw, he⟩ | ⟨e, hw, he⟩ <;> rw [he] at ht
  · cases i with
    | init rate =>
      rw [samplesAfter_init p h hw]
      change initWith p rate s = .next t at ht
      split
      next hr =>
        rw [initWith_legal p s hr] at ht
        obtain rfl := Host.Outcome.next.inj ht
        exact (DelayLine.initialise p s hr).respond _ _
      next hr =>
        rw [initWith_illegal p s (Bool.eq_false_of_not_eq_true hr)] at ht
        obtain rfl := Host.Outcome.next.inj ht
        exact hd.markRejected.respond _ _
    | process =>
      obtain ⟨-, sample, rfl⟩ := process_next hs ht
      rw [samplesAfter_process p h hw hs]
      exact hd.processed.respond _ _
    | setcf _ | setmf _ | setmr _ | setmo _ | setsync _ | setincl _ =>
      rw [execWith_eq_setter p rfl, setter_initialized hs] at ht
      obtain rfl := Host.Outcome.next.inj ht
      rw [samplesAfter_setter p h hw rfl]
      exact (hd.setterWrite _).respond _ _
  · obtain rfl := Host.Outcome.next.inj ht
    rw [samplesAfter_illegal p h hw]
    exact hd.markRejected.respond _ _

/-- Of the four effects only an accepted INIT initialises the core. -/
theorem DelayLine.of_initialising_word (hs : s.initialized = false) (ht : runWordWith p w s = .next t)
    (hi : t.initialized = true) : DelayLine [] t := by
  cases runWordWith_effect ht with
  | rejected e => exact absurd (hs.symm.trans hi) Bool.false_ne_true
  | initialised _ hr => exact (DelayLine.initialise p s hr).respond _ _
  | registerSet _ _ hs' => exact absurd (hs.symm.trans hs') Bool.false_ne_true
  | processed _ hs' _ _ => exact absurd (hs.symm.trans hs') Bool.false_ne_true

end DelayLine

/-- Settles O58: a step runs a word, or it leaves the buffer, the cursors and the samples alone. -/
theorem bufferIsADelayLine : Obligations.BufferIsADelayLine := by
  intro p s t h ht hi
  rcases stepWith_initialized ht hi with ⟨w, rest, hhost, hrsp, hrun⟩ | ⟨hno, moves, rfl | rfl⟩
  · rw [samplesAfterStep_command p h hhost hrsp]
    exact ⟨fun hs hd => (hd.withHost rest).after_word hs hrun,
      fun hs => .of_initialising_word (s := { s with host := rest }) hs hrun hi⟩
  · rw [samplesAfterStep_noCommand p h hno]
    exact ⟨fun _ hd => hd.withHost moves, fun hs => absurd (hs.symm.trans hi) Bool.false_ne_true⟩
  · rw [samplesAfterStep_noCommand p h hno]
    rw [deliver_initialized] at hi
    exact ⟨fun _ hd => (hd.withHost moves).deliver, fun hs => absurd (hs.symm.trans hi) Bool.false_ne_true⟩

/-! ### The sample a read offset selects (R62, R110, R111) -/

theorem sampleAgo_eq (h : List Binary32) {k : Nat} (hk : 1 ≤ k) :
    sampleAgo h k = if k ≤ h.length then h.getD (h.length - k) plusZero else plusZero := by
  rw [sampleAgo]
  split
  next hle =>
    rw [List.getD_reverse _ (by omega)]
    congr 1
    omega
  next hgt => exact List.getD_eq_default _ _ (by rw [List.length_reverse]; omega)

theorem delayOf_bounds {d len : Nat} (hlen : 2 ≤ len) (hd : d < len) : 1 ≤ delayOf d len ∧ delayOf d len ≤ len := by
  rw [delayOf]
  split_ifs <;> omega

/-- R62's table is one rule modulo L: an offset of d selects the sample of d - 1 commands ago. -/
theorem delayOf_modEq (d : Nat) {len : Nat} (hlen : 1 ≤ len) : (delayOf d len : Int) ≡ d - 1 [ZMOD len] := by
  rw [delayOf]
  split_ifs with h1 h0
  · subst h1
    simp [Int.ModEq]
  · subst h0
    simp [Int.ModEq, Nat.cast_sub hlen]
  · rw [Nat.cast_sub (by omega), Nat.cast_one]

/-- The read cursor stands one after the next write, so the pointer is `delayOf` entries before that write, modulo L. -/
theorem pointerAt_eq (n : Nat) (offset : Int) {len : Nat} (hlen : 2 ≤ len) :
    (pointerAt ((n + 1) % len) offset len).toNat = (n + (len - delayOf (emod offset len).toNat len)) % len := by
  have d_nonneg : 0 ≤ emod offset len := Int.emod_nonneg _ (by omega)
  have d_lt : emod offset len < len := Int.emod_lt_of_pos _ (by omega)
  obtain ⟨d, hd⟩ := Int.eq_ofNat_of_zero_le d_nonneg
  have hcursor : (((n + 1) % len : Nat) : Int) ≡ n + 1 [ZMOD len] := by
    push_cast
    exact Int.mod_modEq _ _
  have hoffset : offset ≡ d [ZMOD len] := hd ▸ (Int.mod_modEq offset len).symm
  have hdelay := delayOf_modEq d (len := len) (by omega)
  obtain ⟨-, delay_le⟩ := delayOf_bounds (d := d) hlen (by omega)
  have key : (((n + 1) % len : Nat) : Int) - offset + len ≡ ((n + (len - delayOf d len) : Nat) : Int) [ZMOD len] :=
    calc (((n + 1) % len : Nat) : Int) - offset + len
        ≡ n + 1 - d + len [ZMOD len] := (hcursor.sub hoffset).add_right _
      _ = n + (len - (d - 1)) := by ring
      _ ≡ n + (len - delayOf d len) [ZMOD len] := (hdelay.symm.sub_left _).add_left _
      _ = ((n + (len - delayOf d len) : Nat) : Int) := by rw [Nat.cast_add, Nat.cast_sub delay_le]
  rw [hd, Int.toNat_natCast, pointerAt, emod, key, ← Int.natCast_mod, Int.toNat_natCast]

/-- Of a delay line, the entry k before the next write is the sample of k commands ago. -/
theorem DelayLine.read_ago {h : List Binary32} {s : State} (hd : DelayLine h s) {k : Nat} (hk : 1 ≤ k)
    (hle : k ≤ s.bufLen) : s.buffer.read ((h.length + (s.bufLen - k)) % s.bufLen) = sampleAgo h k := by
  rw [sampleAgo_eq h hk]
  split
  next hwritten =>
    have hindex : h.length + (s.bufLen - k) = h.length - k + s.bufLen := by omega
    rw [hindex, Nat.add_mod_right, hd.written _ (by omega) (by omega)]
  next hyoung =>
    rw [Nat.mod_eq_of_lt (by omega), hd.unwritten _ (by omega)]

/-- What PROCESS reads of a delay line, by R62's table. -/
theorem DelayLine.read_pointer {h : List Binary32} {s : State} (hd : DelayLine h s) (p : Params) :
    s.buffer.read (readPointer p s).toNat =
      sampleAgo h (delayOf (emod (readOffset p s) s.bufLen).toNat s.bufLen) := by
  have hlen := hd.length
  have d_lt : emod (readOffset p s) s.bufLen < s.bufLen := Int.emod_lt_of_pos _ (by omega)
  obtain ⟨one_le, le_len⟩ := delayOf_bounds hlen (d := (emod (readOffset p s) s.bufLen).toNat) (by omega)
  rw [readPointer, hd.readCursor, pointerAt_eq h.length _ hlen, hd.read_ago one_le le_len]

/-- Settles O59: the sample read is R62's, and offset 1 is its row for L commands. -/
theorem defaultOffsetIsOneSecondOfDelay : Obligations.DefaultOffsetIsOneSecondOfDelay := by
  intro p s t h hs hd ht
  have response : t.rsp = some (0x0#4 ++
      mix p s (sampleAgo h (delayOf (emod (readOffset p s) s.bufLen).toNat s.bufLen))) := by
    rcases processWith_cases p ht with ⟨hn, -⟩ | ⟨-, -, rfl⟩
    · exact absurd (hn.symm.trans hs) Bool.false_ne_true
    · rw [respond_rsp, hd.read_pointer p]
      rfl
  refine ⟨response, fun hone hcarrier => ?_⟩
  have hlen : 1 ≤ s.bufLen := by have := hd.length; omega
  have hdelay : delayOf (1 : Int).toNat s.bufLen = s.bufLen := rfl
  rw [response, hone, hdelay, mix, hcarrier, sampleAgo_eq h hlen]
  rfl

end Sys2Proof.Machine

/-! The proofs of the statements about 30_encoding.md: the decoder and the encoder (R70 to R77), the opcode table (R74), the
textual form (R81, R82), the responses (R79, R80) and the port (R83, R84). -/

namespace Sys2Proof

/-! ### The operand of format B (R71, R73) -/

/-- Bits 31 to 1 of the word and of its operand field are the same bits. -/
theorem extractLsb'_operandField (w : CommandWord) : (operandField w).extractLsb' 1 31 = w.extractLsb' 1 31 := by
  apply BitVec.eq_of_toNat_eq
  simp only [operandField, BitVec.extractLsb'_toNat, Nat.shiftRight_eq_div_pow]
  omega

/-- Format B's must-be-zero bits are all of the operand but the boolean. -/
theorem booleanOperand_iff (arg : BitVec 32) : (∃ b, arg = booleanOperand b) ↔ arg.extractLsb' 1 31 = 0#31 := by
  constructor
  · rintro ⟨b, rfl⟩
    cases b with
    | false | true => decide
  · intro h
    have bits : arg.toNat / 2 % 2 ^ 31 = 0 := by
      simpa [BitVec.extractLsb'_toNat, Nat.shiftRight_eq_div_pow] using congrArg BitVec.toNat h
    have value : arg.toNat = 0 ∨ arg.toNat = 1 := by have := arg.isLt; omega
    rcases value with h0 | h1
    · exact ⟨false, BitVec.eq_of_toNat_eq h0⟩
    · exact ⟨true, BitVec.eq_of_toNat_eq h1⟩

theorem decodeBoolean_booleanOperand (mk : Bool → Instr) (op : BitVec 8) (b : Bool) :
    decodeBoolean mk op (booleanOperand b) = .ok (mk b) := by
  cases b with
  | false | true => rfl

theorem decodeBoolean_error (mk : Bool → Instr) (op : BitVec 8) {arg : BitVec 32} (h : arg.extractLsb' 1 31 ≠ 0#31) :
    decodeBoolean mk op arg = .error (.booleanNotOneBit op arg) := by
  have not_boolean : ¬ ∃ b, arg = booleanOperand b := mt (booleanOperand_iff arg).mp h
  have ne_zero : arg ≠ 0#32 := fun h0 => not_boolean ⟨false, h0⟩
  have ne_one : arg ≠ 1#32 := fun h1 => not_boolean ⟨true, h1⟩
  rw [decodeBoolean, if_neg ne_zero, if_neg ne_one]

/-! ### The decoder on a word put together from its fields: one equation an opcode (R74) -/

section Decode

variable (arg : BitVec 32)

theorem decode_init : decode (commandWord 0x01#8 arg) = .ok (.init arg) := by simp [decode]

theorem decode_process : decode (commandWord 0x02#8 arg) = decodeNoOperand .process arg := by simp [decode]

theorem decode_setcf : decode (commandWord 0x10#8 arg) = .ok (.setcf arg) := by simp [decode]

theorem decode_setmf : decode (commandWord 0x11#8 arg) = .ok (.setmf arg) := by simp [decode]

theorem decode_setmr : decode (commandWord 0x12#8 arg) = .ok (.setmr arg) := by simp [decode]

theorem decode_setmo : decode (commandWord 0x13#8 arg) = .ok (.setmo arg) := by simp [decode]

theorem decode_setsync : decode (commandWord 0x14#8 arg) = decodeBoolean .setsync 0x14#8 arg := by simp [decode]

theorem decode_setincl : decode (commandWord 0x15#8 arg) = decodeBoolean .setincl 0x15#8 arg := by simp [decode]

/-- The opcodes of the eight commands, as R75 (a) lists them. -/
def assignedOpcodes : List (BitVec 8) := [0x01#8, 0x02#8, 0x10#8, 0x11#8, 0x12#8, 0x13#8, 0x14#8, 0x15#8]

theorem decode_unassigned {op : BitVec 8} (h : op ∉ assignedOpcodes) : ∃ e, decode (commandWord op arg) = .error e := by
  simp only [assignedOpcodes, List.mem_cons, List.not_mem_nil, or_false, not_or] at h
  obtain ⟨h1, h2, h3, h4, h5, h6, h7, h8⟩ := h
  by_cases reserved : op = 0x16#8 ∨ op = 0x17#8
  · exact ⟨.reservedOpcode op, by simp [decode, *]⟩
  · exact ⟨.unassignedOpcode op, by simp [decode, *]⟩

end Decode

theorem decode_encode (i : Instr) : decode (encode i) = .ok i := by
  cases i with
  | init rate => exact decode_init rate
  | process => exact decode_process 0#32
  | setcf hz => exact decode_setcf hz
  | setmf hz => exact decode_setmf hz
  | setmr x => exact decode_setmr x
  | setmo x => exact decode_setmo x
  | setsync b => exact (decode_setsync _).trans (decodeBoolean_booleanOperand .setsync _ b)
  | setincl b => exact (decode_setincl _).trans (decodeBoolean_booleanOperand .setincl _ b)

/-! ### What a word can be (R75) -/

/-- The opcode and the operand are of one of the kinds (a), (b) and (c) of R75. -/
def IllegalFields (op : BitVec 8) (arg : BitVec 32) : Prop :=
  op ∉ assignedOpcodes ∨ (op = 0x02#8 ∧ arg ≠ 0#32) ∨ ((op = 0x14#8 ∨ op = 0x15#8) ∧ arg.extractLsb' 1 31 ≠ 0#31)

/-- A switch, its word put together from the fields, is the word of a command or one of R75 (c). -/
theorem commandWord_switch_cases {mk : Bool → Instr} {op : BitVec 8} (hop : op = 0x14#8 ∨ op = 0x15#8)
    (hdecode : ∀ arg, decode (commandWord op arg) = decodeBoolean mk op arg)
    (hencode : ∀ b, encode (mk b) = commandWord op (booleanOperand b)) (arg : BitVec 32) :
    (∃ i, encode i = commandWord op arg) ∨
      ((∃ e, decode (commandWord op arg) = .error e) ∧ IllegalFields op arg) := by
  by_cases bits : arg.extractLsb' 1 31 = 0#31
  · obtain ⟨b, rfl⟩ := (booleanOperand_iff arg).mpr bits
    exact .inl ⟨mk b, hencode b⟩
  · exact .inr ⟨⟨_, (hdecode arg).trans (decodeBoolean_error mk op bits)⟩, .inr (.inr ⟨hop, bits⟩)⟩

/-- The decoder, said once: a word is the word of a command, or the decoder refuses it and it is one of R75's. -/
theorem commandWord_cases (op : BitVec 8) (arg : BitVec 32) :
    (∃ i, encode i = commandWord op arg) ∨
      ((∃ e, decode (commandWord op arg) = .error e) ∧ IllegalFields op arg) := by
  by_cases hop : op ∈ assignedOpcodes
  · simp only [assignedOpcodes, List.mem_cons, List.not_mem_nil, or_false] at hop
    rcases hop with rfl | rfl | rfl | rfl | rfl | rfl | rfl | rfl
    · exact .inl ⟨.init arg, rfl⟩
    · by_cases harg : arg = 0#32
      · exact .inl ⟨.process, by rw [harg]; rfl⟩
      · exact .inr ⟨⟨.operandNotZero arg, by rw [decode_process, decodeNoOperand, if_neg harg]⟩, .inr (.inl ⟨rfl, harg⟩)⟩
    · exact .inl ⟨.setcf arg, rfl⟩
    · exact .inl ⟨.setmf arg, rfl⟩
    · exact .inl ⟨.setmr arg, rfl⟩
    · exact .inl ⟨.setmo arg, rfl⟩
    · exact commandWord_switch_cases (.inl rfl) decode_setsync (fun _ => rfl) arg
    · exact commandWord_switch_cases (.inr rfl) decode_setincl (fun _ => rfl) arg
  · exact .inr ⟨decode_unassigned arg hop, .inl hop⟩

/-- The word is one of the kinds (a), (b) and (c) of R75. -/
def IllegalWord (w : CommandWord) : Prop := IllegalFields (opcodeField w) (operandField w)

theorem word_cases (w : CommandWord) : (∃ i, encode i = w) ∨ ((∃ e, decode w = .error e) ∧ IllegalWord w) := by
  have h := commandWord_cases (opcodeField w) (operandField w)
  rwa [commandWord_fields] at h

theorem decode_eq_ok_iff (w : CommandWord) (i : Instr) : decode w = .ok i ↔ encode i = w := by
  constructor
  · intro h
    rcases word_cases w with ⟨j, rfl⟩ | ⟨⟨e, he⟩, -⟩
    · rw [Except.ok.inj ((decode_encode j).symm.trans h)]
    · cases he.symm.trans h
  · rintro rfl
    exact decode_encode i

/-! ### The rows of the opcode table (R74) -/

/-- A row that matches a word fixes its opcode and asks the masked operand bits to be zero. -/
theorem fields_of_matches {row : OpcodeRow} (hrow : row ∈ opcodeTable) {w : CommandWord} (h : row.matches w = true) :
    opcodeField w = opcodeField row.matchWord ∧ operandField w &&& operandField row.mask = 0#32 := by
  have table : ∀ row ∈ opcodeTable, opcodeField row.mask = 0xFF#8 ∧ operandField row.matchWord = 0#32 := by decide
  obtain ⟨hmask, hzero⟩ := table row hrow
  have masked : w &&& row.mask = row.matchWord := beq_iff_eq.mp h
  constructor
  · rw [← masked, opcodeField_and, hmask, opcode_mask]
  · rw [← operandField_and, masked, hzero]

/-- The rows have eight different opcodes. -/
theorem row_eq_of_opcode {a b : OpcodeRow} (ha : a ∈ opcodeTable) (hb : b ∈ opcodeTable)
    (h : opcodeField a.matchWord = opcodeField b.matchWord) : a = b := by
  have table : ∀ a ∈ opcodeTable, ∀ b ∈ opcodeTable, opcodeField a.matchWord = opcodeField b.matchWord → a = b := by
    decide
  exact table a ha b hb h

/-- A mask over all operand bits but the lowest keeps bits 31 to 1. -/
theorem extractLsb'_switchMask (arg : BitVec 32) : (arg &&& 0xFFFFFFFE#32).extractLsb' 1 31 = arg.extractLsb' 1 31 := by
  have ones : (0xFFFFFFFE#32).extractLsb' 1 31 = BitVec.allOnes 31 := by decide
  rw [BitVec.extractLsb'_and, ones, BitVec.and_allOnes]

theorem matches_not_illegal {row : OpcodeRow} (hrow : row ∈ opcodeTable) {w : CommandWord} (h : row.matches w = true) :
    ¬ IllegalWord w := by
  obtain ⟨hop, harg⟩ := fields_of_matches hrow h
  have assigned : ∀ row ∈ opcodeTable, opcodeField row.matchWord ∈ assignedOpcodes := by decide
  have process : ∀ row ∈ opcodeTable, opcodeField row.matchWord = 0x02#8 → operandField row.mask = BitVec.allOnes 32 := by
    decide
  have switch : ∀ row ∈ opcodeTable, opcodeField row.matchWord = 0x14#8 ∨ opcodeField row.matchWord = 0x15#8 →
      operandField row.mask = 0xFFFFFFFE#32 := by decide
  rw [IllegalWord, hop]
  rintro (hunassigned | ⟨hprocess, hnonzero⟩ | ⟨hswitch, hbits⟩)
  · exact hunassigned (assigned row hrow)
  · rw [process row hrow hprocess, BitVec.and_allOnes] at harg
    exact hnonzero harg
  · rw [switch row hrow hswitch] at harg
    rw [← extractLsb'_switchMask, harg] at hbits
    exact hbits (by decide)

/-- The row of a command's mnemonic matches its word. -/
theorem encode_matches_row (i : Instr) : ∃ row ∈ opcodeTable, row.mnemonic = i.mnemonic ∧ row.matches (encode i) = true := by
  cases i with
  | init rate => exact Laws.EncodesItsRow.init rate
  | process => exact Laws.EncodesItsRow.process
  | setcf hz => exact Laws.EncodesItsRow.setcf hz
  | setmf hz => exact Laws.EncodesItsRow.setmf hz
  | setmr x => exact Laws.EncodesItsRow.setmr x
  | setmo x => exact Laws.EncodesItsRow.setmo x
  | setsync b => exact Laws.EncodesItsRow.setsync b
  | setincl b => exact Laws.EncodesItsRow.setincl b

theorem encode_not_illegal (i : Instr) : ¬ IllegalWord (encode i) := by
  obtain ⟨row, hrow, -, hmatch⟩ := encode_matches_row i
  exact matches_not_illegal hrow hmatch

/-! ### Which words are illegal (R75) -/

theorem decode_error_iff_illegal (w : CommandWord) : (∃ e, decode w = .error e) ↔ IllegalWord w := by
  rcases word_cases w with ⟨i, rfl⟩ | ⟨refused, illegal⟩
  · simp [decode_encode, encode_not_illegal]
  · exact iff_of_true refused illegal

theorem decode_error_iff_no_row (w : CommandWord) :
    (∃ e, decode w = .error e) ↔ ∀ row ∈ opcodeTable, row.matches w = false := by
  rw [decode_error_iff_illegal]
  constructor
  · intro illegal row hrow
    exact Bool.eq_false_iff.mpr fun hmatch => matches_not_illegal hrow hmatch illegal
  · intro unmatched
    rcases word_cases w with ⟨i, rfl⟩ | ⟨-, illegal⟩
    · obtain ⟨row, hrow, -, hmatch⟩ := encode_matches_row i
      cases hmatch.symm.trans (unmatched row hrow)
    · exact illegal

end Sys2Proof

namespace Sys2Proof.Machine

open Sys2Proof.Config (Params)

/-! ### Words and commands -/

/-- Settles O1. -/
theorem listedWordsDecode : Obligations.ListedWordsDecode := by
  unfold Obligations.ListedWordsDecode
  decide

/-- Settles O2, a command at a time. -/
theorem decodeInvertsEncode : Obligations.DecodeInvertsEncode := fun i _ => decode_encode i

/-- Settles O3: a word that is not a command's is refused. -/
theorem encodeInvertsDecode : Obligations.EncodeInvertsDecode := fun w i => (decode_eq_ok_iff w i).mp

/-- Settles O4: two matching rows agree in the opcode, which no two rows share; a decoded word is its command's word, which
lies in the row of the command's mnemonic. -/
theorem opcodeRowsAreDisjoint : Obligations.OpcodeRowsAreDisjoint := by
  constructor
  · intro w a b ha hb hwa hwb
    obtain ⟨opa, -⟩ := fields_of_matches ha hwa
    obtain ⟨opb, -⟩ := fields_of_matches hb hwb
    exact row_eq_of_opcode ha hb (opa.symm.trans opb)
  · intro w i h
    obtain rfl := (decode_eq_ok_iff w i).mp h
    obtain ⟨row, hrow, hname, hmatch⟩ := encode_matches_row i
    exact ⟨row, hrow, hmatch, hname⟩

/-- A refused word is rejected whatever the state (R75, R151, R155). -/
theorem runWord_illegal {w : CommandWord} (h : ∃ e, decode w = .error e) (s : State) :
    runWord w s = .next { s with errSticky := true, rsp := some 0x100000000#36 } := by
  obtain ⟨e, he⟩ := h
  have response : responseWord (.error .illegalCmd) 0#32 = 0x100000000#36 := by decide
  rw [runWord, he]
  exact (raise_eq .illegalCmd s).trans (by rw [response])

/-- Settles O5. -/
theorem illegalWordsAreExactlyThese : Obligations.IllegalWordsAreExactlyThese := by
  intro w
  have illegal := decode_error_iff_illegal w
  rw [IllegalWord, IllegalFields, extractLsb'_operandField] at illegal
  refine ⟨illegal, decode_error_iff_no_row w, ?_, fun s h => runWord_illegal h s⟩
  cases decode w with
  | error e => exact .inl ⟨e, rfl⟩
  | ok i => exact .inr ⟨i, rfl⟩

/-! ### The textual form (R81, R82) -/

theorem encode_process : encode .process = 0x0200000000#40 := by decide

/-- Settles O6. -/
theorem listingsAssemble : Obligations.ListingsAssemble := by
  refine ⟨fun n => ?_, by decide⟩
  rw [ListingLine.words, encode_process]

/-! ### Responses (R79, R80) -/

section Responses

variable {p : Params} {s t : State} {w : CommandWord}

@[simp] theorem setterWrite_host (p : Params) (i : Instr) (s : State) : (s.setterWrite p i).host = s.host := by
  cases i with
  | init _ | process | setcf _ | setmf _ | setmr _ | setmo _ | setsync _ | setincl _ => rfl

@[simp] theorem setterWrite_delivered (p : Params) (i : Instr) (s : State) :
    (s.setterWrite p i).delivered = s.delivered := by
  cases i with
  | init _ | process | setcf _ | setmf _ | setmr _ | setmo _ | setsync _ | setincl _ => rfl

/-- A command word leaves the host's further moves and the responses delivered before alone. -/
theorem WordEffect.host_delivered (h : WordEffect p w s t) : t.host = s.host ∧ t.delivered = s.delivered := by
  cases h with
  | rejected e => exact ⟨rfl, rfl⟩
  | initialised _ _ => exact ⟨rfl, rfl⟩
  | registerSet _ _ _ => simp
  | processed _ _ _ _ => exact ⟨rfl, rfl⟩

/-- Each of the four effects presents a response, and an accepted PROCESS alone gives it data. -/
theorem WordEffect.response (h : WordEffect p w s t) :
    ∃ st data, t.rsp = some (responseWord st data) ∧ (data ≠ 0#32 → st = .ok ∧ decode w = .ok .process) := by
  cases h with
  | rejected e => exact ⟨.error e, 0#32, rfl, absurd rfl⟩
  | initialised _ _ => exact ⟨.ok, 0#32, rfl, absurd rfl⟩
  | registerSet _ _ _ => exact ⟨.ok, 0#32, rfl, absurd rfl⟩
  | processed hw _ _ sample => exact ⟨.ok, sample, rfl, fun _ => ⟨rfl, hw⟩⟩

theorem statusCode_le_three (st : Status) : (statusCode st).toNat ≤ 3 := by
  cases st with
  | ok => decide
  | error e =>
    cases e with
    | illegalCmd | notInit | badRate => decide

end Responses

/-- Settles O13: the invariant keeps the write cursor in range, so the word completes, with one of the four effects. -/
theorem everyCommandIsAnswered : Obligations.EveryCommandIsAnswered := by
  intro p s w _ hinv
  obtain ⟨t, ht⟩ := runWordWith_completes p w fun hi => (hinv.cursors hi).1
  have effect := runWordWith_effect ht
  obtain ⟨hhost, hdelivered⟩ := effect.host_delivered
  obtain ⟨st, data, hrsp, hdata⟩ := effect.response
  refine ⟨t, responseWord st data, ht, hrsp, hhost, hdelivered, ?_, fun hne => ?_⟩
  · rw [responseStatus_word]
    exact statusCode_le_three st
  · rw [responseData_word] at hne
    obtain ⟨rfl, hprocess⟩ := hdata hne
    exact ⟨responseStatus_word .ok data, hprocess⟩

/-! ### The port (R83, R84) -/

/-- Settles O7. -/
theorem stepRunsPresentedCommand : Obligations.StepRunsPresentedCommand := by
  intro s w rest i hhost hrsp hw
  rw [step, portStep_command _ hhost hrsp, runWord, hw]

theorem deliver_of_some {s : State} {r : ResponseWord} (h : s.rsp = some r) :
    s.deliver = { s with rsp := none, delivered := s.delivered ++ [r] } := by
  rw [State.deliver, h]

theorem deliver_of_none {s : State} (h : s.rsp = none) : s.deliver = s := by
  rw [State.deliver, h]

/-- Settles O9, a move of the host at a time. -/
theorem portHandshake : Obligations.PortHandshake := by
  refine ⟨fun s w rest r hhost hrsp => ?held, fun s rest r hhost hrsp => ?delivered, fun s rest hhost hrsp => ?unused,
    fun s hhost => portStep_idle _ hhost⟩
  case held =>
    have busy : step s = .next (s.holdCommand w rest) := portStep_busy _ hhost hrsp
    refine ⟨by simp [outputs, hrsp], ?_, ?_, ?_⟩
    · rintro (rfl | ⟨v, later, rfl⟩) <;> exact busy
    · rintro later rfl
      exact busy.trans (congrArg _ (deliver_of_some hrsp))
    · rintro later rfl
      exact busy
  case delivered =>
    refine ⟨by simp [outputs, hrsp], hrsp, _, portStep_take _ hhost, deliver_of_some hrsp, ?_, ?_⟩ <;> simp [outputs]
  case unused =>
    exact (portStep_take _ hhost).trans (congrArg _ (deliver_of_none hrsp))

end Sys2Proof.Machine

/-! The proofs of the statements about 40_init.md: which operands INIT accepts (R91), the state an accepted INIT leaves (R90),
and what of the state before it that state depends on (R92, R173). -/

namespace Sys2Proof.Machine

open Sys2Proof.Config (Params)

/-! ### The operands INIT accepts (R91) -/

/-- R91 word for word: the test is the conjunction of (a) to (d). -/
theorem initOperandLegal_iff_tests (bufMax : Nat) (rate : Binary32) :
    initOperandLegal bufMax rate = true ↔
      isNaN rate = false ∧ isInf rate = false ∧ fge rate two = true ∧ FLOORI rate ≤ bufMax := by
  simp only [initOperandLegal, Bool.and_eq_true, Bool.not_eq_true', decide_eq_true_eq, and_assoc]

theorem initOperandLegal_iff_floor (bufMax : Nat) (rate : Binary32) :
    initOperandLegal bufMax rate = true ↔
      isFinite rate = true ∧ 2 ≤ ⌊toRat rate⌋ ∧ ⌊toRat rate⌋ ≤ (bufMax : Int) := by
  have floor_ge : 2 ≤ ⌊toRat rate⌋ ↔ 2 ≤ toRat rate := Int.le_floor
  rw [initOperandLegal_iff, floor_ge]
  refine and_congr_right fun _ => and_congr_right fun hge => ?_
  rw [← FLOORI_floor (le_trans (by norm_num) hge), Nat.cast_le]

theorem initOperandLegal_below_two (bufMax : Nat) {rate : Binary32} (h : toRat rate < 2) :
    initOperandLegal bufMax rate = false := by
  rw [← Bool.not_eq_true, initOperandLegal_iff]
  rintro ⟨-, hge, -⟩
  exact h.not_ge hge

/-- Settles O16: the order of the patterns is that of their values, and an integer bounds a floor where it bounds the
value. -/
theorem initOperandLegalMeans : Obligations.InitOperandLegalMeans := fun bufMax x =>
  ⟨initOperandLegal_iff_tests bufMax x, initOperandLegal_iff_floor bufMax x, initOperandLegal_below_two bufMax⟩

/-! ### The state an accepted INIT leaves (R90) -/

/-- A length is an integer of at most 24 bits, so a quarter of it is a binary32 value and the product is not rounded. -/
theorem defaultRange_exact (p : Params) (draws : Nat) {len : Nat} (h : len ≤ 2 ^ 24) :
    isFinite (defaultRange p draws len) = true ∧ toRat (defaultRange p draws len) = len / 4 := by
  obtain ⟨hf, hv⟩ := ITOF_exact h
  have rounds := fmul_rounds (p.nan draws .rangeProduct) finite_quarter hf
  have product : toRat quarter * toRat (ITOF len) = len / 4 := by
    rw [toRat_quarter, hv]
    ring
  have units : (len : ℚ) / 4 = ((len : Int) : ℚ) * 2 ^ (-2 : Int) := by
    push_cast
    norm_num [div_eq_mul_inv]
  rw [product] at rounds
  exact rounds.of_units (by rw [abs_of_nonneg (Int.natCast_nonneg len)]; exact_mod_cast h) (by norm_num) (by norm_num) units

/-- Settles O17: the registers are those of `State.initialise`, and the range is the product of line I5. -/
theorem initSetsEveryRegister : Obligations.InitSetsEveryRegister := by
  intro rate s hlegal
  obtain ⟨-, hge, hle⟩ := (initOperandLegal_iff _ _).mp hlegal
  have capacity : coreParams.bufMax ≤ 2 ^ 24 := by decide
  have response : responseWord .ok 0#32 = 0x000000000#36 := by decide
  refine ⟨defaultRange coreParams s.draws (FLOORI rate), ?next, Memory.read_cleared,
    FLOORI_floor (le_trans (by norm_num) hge), defaultRange_exact _ _ (hle.trans capacity)⟩
  case next =>
    rw [← response]
    exact initWith_legal coreParams s hlegal

/-! ### What the state after INIT depends on (R92, R173) -/

/-- Settles O19: INIT and its response write every field but the four in which the states agree. -/
theorem initForgetsEverything : Obligations.InitForgetsEverything := by
  intro p rate s t hlegal herr hhost hdelivered hdraws
  have same : (s.initialise p rate).respond .ok 0#32 = (t.initialise p rate).respond .ok 0#32 := by
    simp only [State.respond, State.initialise, State.markInitialized, herr, hhost, hdelivered, hdraws]
  exact ⟨_, initWith_legal p s hlegal, same ▸ initWith_legal p t hlegal⟩

end Sys2Proof.Machine

/-! The proofs of the statements about 41_process.md: the lines of PROCESS (R100 to R105), its address arithmetic (R108 to
R112, R118), its output (R113, R121), the wrap of a phase (R119) and the degenerate values (R122). -/

namespace Sys2Proof.Machine

open Sys2Proof.Config (Params NanDraw)

/-! ### What an accepted PROCESS answers, said once -/

section Accepted

variable {p : Params} {s t : State}

theorem execWith_process_next (p : Params) (hs : s.initialized = true) (hw : s.writeIndex < s.bufLen) :
    execWith p .process s = .next ((s.processed p).respond .ok (mix p s (s.buffer.read (readPointer p s).toNat))) :=
  processWith_next p hs hw

/-- Where an initialised PROCESS answers, it answers with what the mixer makes of the sample read. -/
theorem process_answer (hs : s.initialized = true) (h : execWith p .process s = .next t) :
    t = (s.processed p).respond .ok (mix p s (s.buffer.read (readPointer p s).toNat)) := by
  obtain ⟨hw, -⟩ := process_next hs h
  exact Host.Outcome.next.inj (h.symm.trans (execWith_process_next p hs hw))

theorem process_carrierPhase (hs : s.initialized = true) (h : execWith p .process s = .next t) :
    t.carrierPhase = nextCarrierPhase p s := by
  rw [process_answer hs h]; rfl

theorem process_modulatorPhase (hs : s.initialized = true) (h : execWith p .process s = .next t) :
    t.modulatorPhase = nextModulatorPhase p s := by
  rw [process_answer hs h]; rfl

theorem process_rsp (hs : s.initialized = true) (h : execWith p .process s = .next t) :
    t.rsp = some (responseWord .ok (mix p s (s.buffer.read (readPointer p s).toNat))) := by
  rw [process_answer hs h]; rfl

theorem mix_without_carrier (h : s.includeCarrier = false) (sample : Binary32) : mix p s sample = sample := by
  rw [mix, h, if_neg Bool.false_ne_true]

theorem mix_with_carrier (h : s.includeCarrier = true) (sample : Binary32) :
    mix p s sample = fadd (p.nan s.draws .mixer) sample (carrierSample p s) := by
  rw [mix, if_pos h]

end Accepted

/-- Settles O36: the invariant keeps the write cursor in range. -/
theorem initialisedProcessIsAccepted : Obligations.InitialisedProcessIsAccepted := by
  intro p s hinv hs
  obtain ⟨hw, -⟩ := hinv.cursors hs
  exact ⟨_, _, execWith_process_next p hs hw, rfl, responseStatus_word .ok _⟩

/-- Settles O34: `includeCarrier` is read by the mixer alone. -/
theorem includeCarrierChangesOnlyTheResponse : Obligations.IncludeCarrierChangesOnlyTheResponse := by
  intro p s hs hw
  have excluded := execWith_process_next p (s := { s with includeCarrier := false }) hs hw
  have included := execWith_process_next p (s := { s with includeCarrier := true }) hs hw
  rw [mix_without_carrier rfl] at excluded
  rw [mix_with_carrier rfl] at included
  exact ⟨s.processed p, s.buffer.read (readPointer p s).toNat, excluded, included⟩

/-! ### The phases (R101 to R105) -/

section Phases

variable {p : Params} {s : State} {d d' : NanDraw} {phase inc : Binary32}

theorem wrappedSum_of_wrap (h : fge (fadd d phase inc) TWO_PI = true) :
    wrappedSum d d' phase inc = fsub d' (fadd d phase inc) TWO_PI := by
  rw [wrappedSum, if_pos h]

theorem wrappedSum_of_below (h : fge (fadd d phase inc) TWO_PI = false) :
    wrappedSum d d' phase inc = fadd d phase inc := by
  rw [wrappedSum, h, if_neg Bool.false_ne_true]

/-- Line P3b as one condition (R104). -/
theorem syncedModulator_eq (p : Params) (s : State) :
    syncedModulator p s =
      if fge (carrierSum p s) TWO_PI = true ∧ s.syncEnabled = true then modulatorIncrement p s
      else modulatorSum p s := by
  simp only [syncedModulator, carrierWraps, Bool.and_eq_true]

/-- Line P4a as one condition (R105). -/
theorem nextModulatorPhase_eq (p : Params) (s : State) :
    nextModulatorPhase p s =
      if s.syncEnabled = false ∧ fge (syncedModulator p s) TWO_PI = true then
        fsub (p.nan s.draws .modulatorWrap) (syncedModulator p s) TWO_PI
      else syncedModulator p s := by
  simp only [nextModulatorPhase, Bool.and_eq_true, Bool.not_eq_true']

/-- With sync on the modulator follows the carrier's wrap and makes no test of its own (R104, R105). -/
theorem nextModulatorPhase_syncOn (p : Params) (h : s.syncEnabled = true) :
    nextModulatorPhase p s =
      if fge (carrierSum p s) TWO_PI = true then modulatorIncrement p s else modulatorSum p s := by
  simp [nextModulatorPhase_eq, syncedModulator_eq, h]

end Phases

/-- Settles O30. -/
theorem phasesWrapAndSync : Obligations.PhasesWrapAndSync := by
  intro p s t hs h
  rw [process_carrierPhase hs h, process_modulatorPhase hs h, nextCarrierPhase_eq]
  refine ⟨wrappedSum_of_below, wrappedSum_of_wrap, fun hsync hwrap => ?_, fun hsync hbelow => ?_,
    fun hsync hwrap => ?_, fun hsync hbelow => ?_⟩
  · rw [nextModulatorPhase_syncOn p hsync]
    exact if_pos hwrap
  · rw [nextModulatorPhase_syncOn p hsync]
    exact if_neg (Bool.eq_false_iff.mp hbelow)
  · rw [nextModulatorPhase_syncOff p hsync]
    exact wrappedSum_of_wrap hwrap
  · rw [nextModulatorPhase_syncOff p hsync]
    exact wrappedSum_of_below hbelow

/-- Settles O25: the model's helpers are the lines, but for the two conditions on the modulator. -/
theorem processFollowsItsLines : Obligations.ProcessFollowsItsLines := by
  intro s hs hw
  refine (exec_eq_execWith .process s).trans ((execWith_process_next coreParams hs hw).trans ?_)
  simp only [State.processed, State.advance, readPointer, readOffset, modProduct, coefficient, nextModulatorPhase_eq,
    syncedModulator_eq]
  rfl

/-- An increment of finite operands, its product finite and its divisor not zero, depends on no parameter. -/
theorem increment_params (p q : Params) (m n : Nat) {f rate : Binary32} (hf : isFinite f = true)
    (hprod : isFinite (fmul (q.nan n .incrementProduct) TWO_PI f) = true) (hrate : isFinite rate = true)
    (hne : significand rate ≠ 0) : increment p m f rate = increment q n f rate := by
  rw [increment, increment, fmul_draw _ (q.nan n .incrementProduct) finite_TWO_PI hf]
  exact fdiv_draw _ _ hprod hrate hne

/-- Settles O31: the examples are evaluated at the core's parameters, and are the same at all others. -/
theorem incrementsFollowTheRegisters : Obligations.IncrementsFollowTheRegisters := by
  refine ⟨fun p s h => by rw [carrierIncrement, modulatorIncrement, h], fun p d => ⟨?_, ?_, ?_⟩⟩ <;>
  exact (increment_params p coreParams d 0 (by decide) (by decide) (by decide) (by decide)).trans (by decide)

/-! ### The cursors and the read pointer (R39, R110 to R112, R115) -/

/-- Settles O27: each cursor is `advanceCursor` of itself. -/
theorem cursorsAdvanceByOne : Obligations.CursorsAdvanceByOne := by
  intro p s t hs h
  obtain ⟨-, sample, rfl⟩ := process_next hs h
  refine ⟨rfl, rfl, fun hc => ?_⟩
  have ⟨hw, hr, _⟩ := hc
  exact ⟨advanceCursor_eq_mod hr, advanceCursor_eq_mod hw, hc.processed (p := p)⟩

/-- The length that is added changes no remainder. -/
theorem pointerAt_eq_emod (r : Nat) (offset : Int) (len : Nat) :
    pointerAt r offset len = emod ((r : Int) - offset) len :=
  Int.add_emod_right ..

/-- Settles O28. -/
theorem readPointerIsInRange : Obligations.ReadPointerIsInRange := by
  intro r len offset hlen
  obtain ⟨nonneg, below⟩ := pointerAt_range r offset hlen
  have idle := pointerAt_eq_emod r offset len
  exact ⟨nonneg, below, idle, idle ▸ Int.dvd_self_sub_emod⟩

/-- With the read cursor one ahead, the pointer is the write cursor exactly where the offset is 1 modulo L. -/
theorem pointerAt_eq_write_iff {w len : Nat} (offset : Int) (hw : w < len) (hlen : 2 ≤ len) :
    pointerAt ((w + 1) % len) offset len = w ↔ emod offset len = 1 := by
  have cursor : (((w + 1) % len : Nat) : Int) ≡ w + 1 [ZMOD len] := by
    push_cast
    exact Int.mod_modEq _ _
  have write_rem : (w : Int) % len = w := Int.emod_eq_of_lt (by omega) (by omega)
  have one_rem : (1 : Int) % len = 1 := Int.emod_eq_of_lt (by omega) (by omega)
  calc pointerAt ((w + 1) % len) offset len = w
      ↔ (((w + 1) % len : Nat) : Int) - offset ≡ w [ZMOD len] := by
        rw [pointerAt_eq_emod, emod, Int.ModEq, write_rem]
    _ ↔ (w : Int) + 1 - offset ≡ w [ZMOD len] :=
        ⟨(cursor.sub_right offset).symm.trans, (cursor.sub_right offset).trans⟩
    _ ↔ offset ≡ 1 [ZMOD len] := by
        rw [Int.modEq_iff_dvd, Int.modEq_iff_dvd, ← dvd_neg]
        ring_nf
    _ ↔ emod offset len = 1 := by rw [emod, Int.ModEq, one_rem]

/-- Settles O29. -/
theorem processReadsBeforeItWrites : Obligations.ProcessReadsBeforeItWrites := by
  rintro p s t hs hlen ⟨hw, -, hread⟩ hincl h
  constructor
  · rw [process_rsp hs h, mix_without_carrier hincl]
    rfl
  · rw [readPointer, hread]
    exact pointerAt_eq_write_iff _ hw hlen

/-! ### The bounds of the read offset (R108, R109, R118) -/

/-- `FTOI` does not pass a negative integer bound. -/
theorem neg_le_FTOI {x : Binary32} {n : Nat} (hn : isNaN x = false) (h : -(n : ℚ) ≤ toRat x) : -(n : Int) ≤ FTOI x := by
  have below : -(n : Int) ≤ if 0 ≤ toRat x then ⌊toRat x⌋ else ⌈toRat x⌉ := by
    split
    · exact Int.le_floor.mpr (by exact_mod_cast h)
    · exact_mod_cast h.trans (Int.le_ceil _)
  rw [FTOI_value hn]
  omega

/-- A factor in [-1, 1] does not enlarge a finite value that is not below zero, rounding included. -/
theorem fmul_unit_abs_le (draw : NanDraw) {c r : Binary32} (hc : UnitSample c) (hr : isFinite r = true)
    (h0 : 0 ≤ toRat r) : isFinite (fmul draw c r) = true ∧ |toRat (fmul draw c r)| ≤ toRat r := by
  obtain ⟨fc, lower, upper⟩ := hc
  obtain ⟨finite, below, above⟩ := (fmul_rounds draw fc hr).between (a := negate r) (by rw [isFinite_negate, hr]) hr
    (by rw [toRat_negate]; nlinarith) (by nlinarith)
  rw [toRat_negate] at below
  exact ⟨finite, abs_le.mpr ⟨below, above⟩⟩

/-- Settles O32: the coefficient is a sample in [-1, 1], and the centre is in [0, L]. -/
theorem readOffsetIsBounded : Obligations.ReadOffsetIsBounded := by
  rintro p s ⟨-, -, sinRange, -⟩ hinv hs hnan hphase
  obtain ⟨frange, range0, range_le⟩ := (hinv.range hs).resolve_left (Bool.eq_false_iff.mp hnan)
  have centre := hinv.offset hs
  have coeff : UnitSample (coefficient p s) := sinRange _ hphase
  obtain ⟨fprod, prod_le⟩ := fmul_unit_abs_le (p.nan s.draws .product) coeff frange range0
  obtain ⟨lower, upper⟩ := abs_le.mp (prod_le.trans range_le)
  have above : FTOI (modProduct p s) ≤ s.bufLen := FTOI_le (.inr upper)
  have below : -(s.bufLen : Int) ≤ FTOI (modProduct p s) := neg_le_FTOI (not_isNaN_of_finite fprod) lower
  refine ⟨fprod, prod_le, ?_, ?_⟩
  · rw [readOffset]; omega
  · rw [readOffset]; omega

/-- Settles O33: `FTOI` saturates at 32 bits, and the centre, the cursor and L are at most 2^24. -/
theorem addressArithmeticFitsIn34Bits : Obligations.AddressArithmeticFitsIn34Bits := by
  intro p s hp hinv hs
  have length := hinv.bufLen_le hp hs
  have centre := hinv.offset hs
  obtain ⟨-, cursor, -⟩ := hinv.cursors hs
  obtain ⟨lower, upper⟩ := FTOI_range (modProduct p s)
  rw [readOffset]
  omega

/-! ### The output (R113, R121) -/

/-- A value that is not zero has one pattern. -/
theorem eq_of_toRat_eq {x y : Binary32} (h : toRat x = toRat y) (h0 : toRat y ≠ 0) : x = y := by
  have key : orderKey x = orderKey y :=
    le_antisymm ((toRat_le_iff _ _).mp h.le) ((toRat_le_iff _ _).mp h.ge)
  have ne : magField y ≠ 0 := by rwa [ne_eq, toRat_eq_zero_iff, significand_eq_zero] at h0
  rw [orderKey, orderKey] at key
  cases hx : signBit x <;> cases hy : signBit y <;> simp only [hx, hy, Bool.false_eq_true, if_true, if_false] at key
  · exact eq_of_fields (hx.trans hy.symm) (by omega)
  · omega
  · omega
  · exact eq_of_fields (hx.trans hy.symm) (by omega)

theorem fadd_plusZero (draw : NanDraw) {x : Binary32} (hn : isNaN x = false) (h0 : toRat x ≠ 0) :
    fadd draw plusZero x = x := by
  cases hi : isInf x with
  | true => exact fadd_finite_inf draw hi finite_plusZero
  | false =>
    have hf := finite_of_not hn hi
    obtain ⟨-, value⟩ := (fadd_rounds draw finite_plusZero hf).exact hf (by rw [toRat_plusZero, zero_add])
    exact eq_of_toRat_eq value h0

/-- Settles O35: the exact sum is the sample, which is representable; two zeros of unlike sign add to +0.0. -/
theorem addingToZeroReturnsTheSample : Obligations.AddingToZeroReturnsTheSample := by
  refine fun draw x => ⟨fadd_plusZero draw, ?_⟩
  rw [fadd_finite draw (by decide) (by decide)]
  decide

/-- The sum of two samples in [-1, 1] is in [-2, 2]. -/
theorem fadd_unit_range (draw : NanDraw) {a b : Binary32} (ha : UnitSample a) (hb : UnitSample b) :
    isFinite (fadd draw a b) = true ∧ -2 ≤ toRat (fadd draw a b) ∧ toRat (fadd draw a b) ≤ 2 := by
  obtain ⟨fa, a_ge, a_le⟩ := ha
  obtain ⟨fb, b_ge, b_le⟩ := hb
  have bounds := (fadd_rounds draw fa fb).between (a := negate two) (by rw [isFinite_negate, finite_two]) finite_two
    (by rw [toRat_negate, toRat_two]; linarith) (by rw [toRat_two]; linarith)
  rwa [toRat_negate, toRat_two] at bounds

/-- Settles O57: the buffer holds unit samples and the sine gives one, and the mixer answers one or the sum of two. -/
theorem outputStaysInRange : Obligations.OutputStaysInRange := by
  rintro p s t r ⟨-, -, sinRange, -⟩ hinv hs hbuf h hphase hr
  rw [process_carrierPhase hs h] at hphase
  have carrier : UnitSample (carrierSample p s) := sinRange _ hphase
  have sample := hbuf (readPointer p s).toNat
  have output : responseData r = mix p s (s.buffer.read (readPointer p s).toNat) := by
    rw [process_rsp hs h] at hr
    rw [← Option.some.inj hr, responseData_word]
  refine ⟨fun i => ?entries, ?output⟩
  case entries =>
    rw [process_answer hs h]
    change UnitSample ((s.buffer.write s.writeIndex (carrierSample p s)).read i)
    rw [Memory.read_write hinv.canonical]
    split
    · exact carrier
    · exact hbuf i
  case output =>
    rw [output]
    cases hincl : s.includeCarrier with
    | false =>
      rw [mix_without_carrier hincl]
      obtain ⟨finite, bounds⟩ := sample
      exact ⟨finite, fun _ => bounds, nofun⟩
    | true =>
      rw [mix_with_carrier hincl]
      obtain ⟨finite, bounds⟩ := fadd_unit_range (p.nan s.draws .mixer) sample carrier
      exact ⟨finite, nofun, fun _ => bounds⟩

/-! ### The wrap of a phase (R119) -/

/-- The sum of two phases in range, before the wrap. -/
theorem fadd_phases_bounds (draw : NanDraw) {phase inc : Binary32} (hphase : PhaseInRange phase)
    (hinc : PhaseInRange inc) :
    isFinite (fadd draw phase inc) = true ∧ 0 ≤ toRat (fadd draw phase inc) ∧
      toRat (fadd draw phase inc) ≤ 2 * toRat predTwoPi := by
  have phase_le := hphase.le_predTwoPi
  have inc_le := hinc.le_predTwoPi
  obtain ⟨fphase, phase0, -⟩ := hphase
  obtain ⟨finc, inc0, -⟩ := hinc
  have bounds := (fadd_rounds draw fphase finc).between finite_plusZero finite_twicePredTwoPi
    (by rw [toRat_plusZero]; linarith) (by rw [toRat_twicePredTwoPi]; linarith)
  rwa [toRat_plusZero, toRat_twicePredTwoPi] at bounds

/-- From `TWO_PI` to twice the pattern below it a value is a number of units of 2^-21, as `TWO_PI` is, and their
difference has at most 24 bits, so it is not rounded. -/
theorem fsub_TWO_PI_exact (draw : NanDraw) {x : Binary32} (hx : isFinite x = true) (lower : toRat TWO_PI ≤ toRat x)
    (upper : toRat x ≤ 2 * toRat predTwoPi) :
    isFinite (fsub draw x TWO_PI) = true ∧ toRat (fsub draw x TWO_PI) = toRat x - toRat TWO_PI := by
  rw [toRat_predTwoPi] at upper
  have rounds := fsub_rounds draw hx finite_TWO_PI
  rw [toRat_TWO_PI] at lower rounds ⊢
  have large : (2 : ℚ) ^ (((128 : Nat) : Int) - 126) ≤ |toRat x| := by
    refine le_trans ?_ (le_abs_self _)
    norm_num
    linarith
  obtain ⟨j, hj⟩ := units_of_ge large
  have unit : (2 : ℚ) ^ (((128 : Nat) : Int) - 149) = 1 / 2 ^ 21 := by norm_num
  rw [unit] at hj
  have j_ge : (13176795 : ℚ) ≤ j := by rw [hj] at lower; linarith
  have j_le : (j : ℚ) ≤ 2 * 13176794 := by rw [hj] at upper; linarith
  have j_ge' : 13176795 ≤ j := by exact_mod_cast j_ge
  have j_le' : j ≤ 2 * 13176794 := by exact_mod_cast j_le
  have few_bits : |j - 13176795| ≤ 2 ^ 24 := by rw [abs_of_nonneg (by omega)]; omega
  refine rounds.of_units (e := -21) few_bits (by norm_num) (by norm_num) ?_
  rw [hj]
  push_cast
  norm_num
  ring

/-- Settles O54. -/
theorem wrapIsExact : Obligations.WrapIsExact := by
  intro d d' phase inc hphase hinc
  obtain ⟨finite, nonneg, upper⟩ := fadd_phases_bounds d hphase hinc
  refine ⟨finite, nonneg, upper, fun hwrap => ?_⟩
  rw [fge_of_finite finite finite_TWO_PI, decide_eq_true_eq] at hwrap
  obtain ⟨fdiff, exact_diff⟩ := fsub_TWO_PI_exact d' finite hwrap upper
  refine ⟨fdiff, exact_diff, ?_, ?_⟩
  · rw [exact_diff]; linarith
  · rw [exact_diff]
    rw [toRat_predTwoPi] at upper
    rw [toRat_TWO_PI]
    linarith

/-! ### A finite result has finite operands (R6, R122 (d)) -/

section FiniteResults

variable {draw : NanDraw} {a b : Binary32}

theorem class_cases (x : Binary32) : isNaN x = true ∨ isInf x = true ∨ isFinite x = true := by
  rw [isNaN_iff, isInf_iff, isFinite_iff]
  omega

theorem not_finite_of_nan {x : Binary32} (h : isNaN x = true) : ¬ isFinite x = true := fun hf => by
  rw [not_isNaN_of_finite hf] at h
  cases h

theorem not_finite_of_inf {x : Binary32} (h : isInf x = true) : ¬ isFinite x = true := fun hf => by
  rw [not_isInf_of_finite hf] at h
  cases h

theorem not_finite_nanOf (bits : Config.NanBits) : ¬ isFinite (nanOf bits) = true := not_finite_of_nan (isNaN_nanOf bits)

theorem not_finite_infinityOf (sign : Bool) : ¬ isFinite (infinityOf sign) = true := by
  cases sign <;> decide

theorem finite_of_fadd (h : isFinite (fadd draw a b) = true) : isFinite a = true ∧ isFinite b = true := by
  rcases class_cases a with ha | ha | ha
  · rw [fadd_nan draw (.inl ha)] at h
    exact absurd h (not_finite_nanOf _)
  · rcases class_cases b with hb | hb | hb
    · rw [fadd_nan draw (.inr hb)] at h
      exact absurd h (not_finite_nanOf _)
    · by_cases hsign : signBit a = signBit b
      · rw [fadd_inf_same draw ha hb hsign] at h
        exact absurd h (not_finite_of_inf ha)
      · rw [fadd_inf_opposite draw ha hb hsign] at h
        exact absurd h (not_finite_nanOf _)
    · rw [fadd_inf_finite draw ha hb] at h
      exact absurd h (not_finite_of_inf ha)
  · rcases class_cases b with hb | hb | hb
    · rw [fadd_nan draw (.inr hb)] at h
      exact absurd h (not_finite_nanOf _)
    · rw [fadd_finite_inf draw hb ha] at h
      exact absurd h (not_finite_of_inf hb)
    · exact ⟨ha, hb⟩

/-- A quotient alone may be finite with an operand that is not: a finite value over an infinity. -/
theorem finite_of_fdiv (h : isFinite (fdiv draw a b) = true) : isFinite a = true := by
  rcases class_cases a with ha | ha | ha
  · rw [fdiv_nan draw (.inl ha)] at h
    exact absurd h (not_finite_nanOf _)
  · rcases class_cases b with hb | hb | hb
    · rw [fdiv_nan draw (.inr hb)] at h
      exact absurd h (not_finite_nanOf _)
    · rw [fdiv_inf_inf draw ha hb] at h
      exact absurd h (not_finite_nanOf _)
    · rw [fdiv_inf_finite draw ha hb] at h
      exact absurd h (not_finite_infinityOf _)
  · exact ha

theorem finite_of_fmul_TWO_PI (h : isFinite (fmul draw TWO_PI a) = true) : isFinite a = true := by
  rcases class_cases a with ha | ha | ha
  · rw [fmul_nan draw (.inr ha)] at h
    exact absurd h (not_finite_nanOf _)
  · rw [fmul_finite_inf draw ha finite_TWO_PI, if_neg (by decide)] at h
    exact absurd h (not_finite_infinityOf _)
  · exact ha

theorem finite_of_wrappedSum {d d' : NanDraw} {phase inc : Binary32} (h : isFinite (wrappedSum d d' phase inc) = true) :
    isFinite (fadd d phase inc) = true := by
  rw [wrappedSum] at h
  split at h
  · exact (finite_of_fadd h).1
  · exact h

variable {p : Params} {s : State}

theorem finite_of_increment {draws : Nat} {f rate : Binary32} (h : isFinite (increment p draws f rate) = true) :
    isFinite (fmul (p.nan draws .incrementProduct) TWO_PI f) = true :=
  finite_of_fdiv h

theorem finite_of_nextCarrierPhase (h : isFinite (nextCarrierPhase p s) = true) :
    isFinite s.carrierPhase = true ∧ isFinite (carrierIncrement p s) = true :=
  finite_of_fadd (finite_of_wrappedSum h)

theorem finite_of_nextModulatorPhase_syncOff (hsync : s.syncEnabled = false)
    (h : isFinite (nextModulatorPhase p s) = true) :
    isFinite s.modulatorPhase = true ∧ isFinite (modulatorIncrement p s) = true := by
  rw [nextModulatorPhase_syncOff p hsync] at h
  exact finite_of_fadd (finite_of_wrappedSum h)

/-- With sync on the next phase is one increment, or a sum that has it as a term. -/
theorem finite_modulatorIncrement_of_next (h : isFinite (nextModulatorPhase p s) = true) :
    isFinite (modulatorIncrement p s) = true := by
  cases hsync : s.syncEnabled with
  | false => exact (finite_of_nextModulatorPhase_syncOff hsync h).2
  | true =>
    rw [nextModulatorPhase_syncOn p hsync] at h
    split at h
    · exact h
    · exact (finite_of_fadd h).2

end FiniteResults

theorem not_finite_mono {x y : Binary32} (h : isFinite y = true → isFinite x = true) (hx : isFinite x = false) :
    isFinite y = false :=
  Bool.eq_false_iff.mpr fun hy => Bool.eq_false_iff.mp hx (h hy)

/-- Settles O40: each clause but the last is the converse of one about finite results. -/
theorem nonFiniteValuesPropagate : Obligations.NonFiniteValuesPropagate := by
  intro p s t hs h
  rw [process_carrierPhase hs h, process_modulatorPhase hs h]
  refine ⟨fun draw f => not_finite_mono finite_of_fmul_TWO_PI, fun hprod => ?carrier, fun hprod => ?modulator,
    not_finite_mono fun hf => (finite_of_nextCarrierPhase hf).1,
    fun hsync => not_finite_mono fun hf => (finite_of_nextModulatorPhase_syncOff hsync hf).1, fun hrange => ?range⟩
  case carrier =>
    have inc : isFinite (carrierIncrement p s) = false := not_finite_mono finite_of_increment hprod
    exact ⟨inc, not_finite_mono (fun hf => (finite_of_nextCarrierPhase hf).2) inc⟩
  case modulator =>
    have inc : isFinite (modulatorIncrement p s) = false := not_finite_mono finite_of_increment hprod
    exact ⟨inc, not_finite_mono finite_modulatorIncrement_of_next inc⟩
  case range =>
    have nan : isNaN (modProduct p s) = true := by
      rw [modProduct, fmul_nan _ (.inr hrange)]
      exact isNaN_nanOf _
    exact ⟨nan, by rw [readOffset, FTOI_nan nan, zero_add]⟩

/-! ### Frequencies that are not positive (R122 (a), (b)) -/

/-- Rounding does not pass a finite bound above. -/
theorem Rounds.toRat_le {v : ℚ} {x c : Binary32} (h : Rounds v x) (hc : isFinite c = true) (hv : v ≤ toRat c) :
    toRat x ≤ toRat c :=
  (toRat_le_iff _ _).mpr (h.key_le hc hv)

/-- A rounded zero is a zero. -/
theorem Rounds.zero {v : ℚ} {x : Binary32} (h : Rounds v x) (hv : v = 0) : isFinite x = true ∧ toRat x = 0 := by
  have := h.exact finite_plusZero (hv.trans toRat_plusZero.symm)
  rwa [toRat_plusZero] at this

section Increments

variable (p : Params) (draws : Nat) {f rate : Binary32}

theorem increment_of_zero (hf : isFinite f = true) (h0 : toRat f = 0) (hrate : isFinite rate = true)
    (hpos : 0 < toRat rate) : isFinite (increment p draws f rate) = true ∧ toRat (increment p draws f rate) = 0 := by
  obtain ⟨fprod, prod0⟩ := (fmul_rounds (p.nan draws .incrementProduct) finite_TWO_PI hf).zero (by rw [h0, mul_zero])
  exact (fdiv_rounds _ fprod hrate hpos.ne').zero (by rw [prod0, zero_div])

theorem increment_nonpos (hf : isFinite f = true) (h0 : toRat f ≤ 0) (hrate : isFinite rate = true)
    (hpos : 0 < toRat rate) (hinc : isFinite (increment p draws f rate) = true) :
    toRat (increment p draws f rate) ≤ 0 := by
  have fprod := finite_of_increment hinc
  have two_pi_nonneg : 0 ≤ toRat TWO_PI := toRat_nonneg_of_sign (by decide)
  have prod_le : toRat (fmul (p.nan draws .incrementProduct) TWO_PI f) ≤ toRat plusZero :=
    (fmul_rounds _ finite_TWO_PI hf).toRat_le finite_plusZero
      (by rw [toRat_plusZero]; exact mul_nonpos_of_nonneg_of_nonpos two_pi_nonneg h0)
  rw [toRat_plusZero] at prod_le
  rw [← toRat_plusZero]
  exact (fdiv_rounds _ fprod hrate hpos.ne').toRat_le finite_plusZero
    (by rw [toRat_plusZero]; exact div_nonpos_of_nonpos_of_nonneg prod_le hpos.le)

end Increments

section PhaseMoves

variable (d d' : NanDraw) {phase inc : Binary32}

/-- A finite sum below `TWO_PI` is not wrapped. -/
theorem wrappedSum_of_lt (hsum : isFinite (fadd d phase inc) = true) (hlt : toRat (fadd d phase inc) < toRat TWO_PI) :
    wrappedSum d d' phase inc = fadd d phase inc :=
  wrappedSum_of_below (by rw [fge_of_finite hsum finite_TWO_PI, decide_eq_false_iff_not]; exact hlt.not_ge)

theorem wrappedSum_of_zero (hphase : isFinite phase = true) (hlt : toRat phase < toRat TWO_PI)
    (hinc : isFinite inc = true) (h0 : toRat inc = 0) :
    isFinite (wrappedSum d d' phase inc) = true ∧ toRat (wrappedSum d d' phase inc) = toRat phase := by
  obtain ⟨fsum, sum_eq⟩ := (fadd_rounds d hphase hinc).exact hphase (by rw [h0, add_zero])
  rw [wrappedSum_of_lt d d' fsum (sum_eq ▸ hlt)]
  exact ⟨fsum, sum_eq⟩

theorem wrappedSum_le (hlt : toRat phase < toRat TWO_PI) (hinc : toRat inc ≤ 0)
    (hnext : isFinite (wrappedSum d d' phase inc) = true) : toRat (wrappedSum d d' phase inc) ≤ toRat phase := by
  have fsum := finite_of_wrappedSum hnext
  obtain ⟨fphase, finc⟩ := finite_of_fadd fsum
  have sum_le := (fadd_rounds d fphase finc).toRat_le fphase (by linarith)
  rw [wrappedSum_of_lt d d' fsum (sum_le.trans_lt hlt)]
  exact sum_le

end PhaseMoves

theorem Inv.rate_pos {p : Params} {s : State} (h : Inv p s) (hs : s.initialized = true) : 0 < toRat s.sampleRate := by
  obtain ⟨-, two_le⟩ := h.rate hs
  linarith

/-- Settles O38: a zero frequency makes a zero increment, which the sum and the wrap pass over. -/
theorem zeroFrequencyHoldsThePhase : Obligations.ZeroFrequencyHoldsThePhase := by
  intro p s t hinv hs h
  obtain ⟨frate, -⟩ := hinv.rate hs
  have rate_pos := hinv.rate_pos hs
  rw [process_carrierPhase hs h, process_modulatorPhase hs h, nextCarrierPhase_eq]
  constructor
  · intro hf h0
    obtain ⟨finc, inc0⟩ := increment_of_zero p s.draws hf h0 frate rate_pos
    exact ⟨finc, inc0, fun hphase hlt => wrappedSum_of_zero _ _ hphase hlt finc inc0⟩
  · intro hf h0
    obtain ⟨finc, inc0⟩ := increment_of_zero p s.draws hf h0 frate rate_pos
    refine ⟨finc, inc0, fun hsync hphase hlt => ?_⟩
    rw [nextModulatorPhase_syncOff p hsync]
    exact wrappedSum_of_zero _ _ hphase hlt finc inc0

/-- Settles O39: an increment that is not positive raises no sum, and a sum below `TWO_PI` is not wrapped. -/
theorem negativeFrequencyNeverRaisesThePhase : Obligations.NegativeFrequencyNeverRaisesThePhase := by
  intro p s t hinv hs h
  obtain ⟨frate, -⟩ := hinv.rate hs
  have rate_pos := hinv.rate_pos hs
  rw [process_carrierPhase hs h, process_modulatorPhase hs h]
  constructor
  · intro hf h0 _ hlt hnext
    obtain ⟨-, finc⟩ := finite_of_nextCarrierPhase hnext
    exact wrappedSum_le _ _ hlt (increment_nonpos p s.draws hf h0 frate rate_pos finc) hnext
  · intro hsync hf h0 _ hlt hnext
    obtain ⟨-, finc⟩ := finite_of_nextModulatorPhase_syncOff hsync hnext
    rw [nextModulatorPhase_syncOff p hsync] at hnext ⊢
    exact wrappedSum_le _ _ hlt (increment_nonpos p s.draws hf h0 frate rate_pos finc) hnext

end Sys2Proof.Machine

/-! The proofs of the statements about 42_config.md: what a setter answers and leaves (R130 to R135), and how two setters
interact (R136). -/

namespace Sys2Proof.Machine

open Sys2Proof.Config (Params NanDraw)

/-! ### What an accepted setter answers, said once -/

theorem execWith_setter_next (p : Params) {i : Instr} (hset : isSetter i = true) {s : State} (hs : s.initialized = true) :
    execWith p i s = .next ((s.setterWrite p i).respond .ok 0#32) := by
  rw [execWith_eq_setter p hset, setter_initialized hs]

/-- The core's setter, its response word written out. -/
theorem exec_setter_next {i : Instr} (hset : isSetter i = true) {s : State} (hs : s.initialized = true) :
    exec i s = .next { s.setterWrite coreParams i with rsp := some 0x000000000#36 } := by
  have response : responseWord .ok 0#32 = 0x000000000#36 := by decide
  rw [exec_eq_execWith, execWith_setter_next coreParams hset hs, State.respond, response]

/-! ### The samples a fraction stands for (R132, R133) -/

section Comparisons

variable {a b : Binary32}

/-- The order of R6 is that of the values on the infinities too, whose fields denote a magnitude of 2^128. -/
theorem flt_iff_of_not_nan (ha : isNaN a = false) (hb : isNaN b = false) : flt a b = true ↔ toRat a < toRat b := by
  simp [flt, ha, hb, toRat_lt_iff]

theorem fgt_iff_of_not_nan (ha : isNaN a = false) (hb : isNaN b = false) : fgt a b = true ↔ toRat b < toRat a := by
  simp [fgt, ha, hb, toRat_lt_iff]

theorem fge_iff_of_not_nan (ha : isNaN a = false) (hb : isNaN b = false) : fge a b = true ↔ toRat b ≤ toRat a := by
  simp [fge, ha, hb, toRat_le_iff]

end Comparisons

section Fraction

variable (draw : NanDraw) {x : Binary32} {len : Nat}

/-- `clamp01` is the clamp of the values (R11). -/
theorem toRat_clamp01 (hn : isNaN x = false) : toRat (clamp01 x) = max 0 (min 1 (toRat x)) := by
  have below := flt_iff_of_not_nan hn (b := plusZero) (by decide)
  have above := fgt_iff_of_not_nan hn (b := one) (by decide)
  rw [toRat_plusZero] at below
  rw [toRat_one] at above
  rcases Bool.eq_false_or_eq_true (flt x plusZero) with h0 | h0
  · have negative := below.mp h0
    rw [clamp01_below h0, toRat_plusZero, max_eq_left ((min_le_right _ _).trans negative.le)]
  · have nonneg : 0 ≤ toRat x := not_lt.mp (below.not.mp (Bool.eq_false_iff.mp h0))
    rw [max_eq_right (le_min zero_le_one nonneg)]
    rcases Bool.eq_false_or_eq_true (fgt x one) with h1 | h1
    · rw [clamp01_above h0 h1, toRat_one, min_eq_left (above.mp h1).le]
    · rw [clamp01_inside h0 h1, min_eq_right (not_lt.mp (above.not.mp (Bool.eq_false_iff.mp h1)))]

theorem fractionOfBuffer_nan (hn : isNaN x = true) : isNaN (fractionOfBuffer draw x len) = true := by
  rw [fractionOfBuffer, clamp01_nan hn, fmul_nan draw (.inl hn)]
  exact isNaN_nanOf _

/-- The product is the clamped fraction's share of L, rounded once. -/
theorem fractionOfBuffer_rounds (hn : isNaN x = false) (hlen : len ≤ 2 ^ 24) :
    Rounds (max 0 (min 1 (toRat x)) * len) (fractionOfBuffer draw x len) := by
  obtain ⟨flen, len_eq⟩ := ITOF_exact hlen
  obtain ⟨nan, -⟩ | ⟨-, fclamp, -⟩ := clamp01_range x
  · rw [hn] at nan; cases nan
  · rw [← toRat_clamp01 hn, ← len_eq]
    exact fmul_rounds draw fclamp flen

theorem fractionOfBuffer_finite (hn : isNaN x = false) (hlen : len ≤ 2 ^ 24) :
    isFinite (fractionOfBuffer draw x len) = true ∧ 0 ≤ toRat (fractionOfBuffer draw x len) ∧
      toRat (fractionOfBuffer draw x len) ≤ len :=
  (fractionOfBuffer_range draw x hlen).resolve_left
    (Bool.eq_false_iff.mp (fractionOfBuffer_rounds draw hn hlen).not_nan)

/-- +0.0 times a finite value without a sign is +0.0, and no other zero. -/
theorem fmul_plusZero {b : Binary32} (hb : isFinite b = true) (hsign : signBit b = false) :
    fmul draw plusZero b = plusZero := by
  have sign : signBit plusZero = false := by decide
  have significand_zero : significand plusZero = 0 := by decide
  have product : fmul draw plusZero b = roundRatio false 0 1 (ulpExp plusZero + ulpExp b) := by
    simp [fmul, not_isNaN_of_finite finite_plusZero, not_isInf_of_finite finite_plusZero, not_isNaN_of_finite hb,
      not_isInf_of_finite hb, sign, hsign, significand_zero]
  rw [product, roundRatio, roundMag_zero]
  rfl

theorem fractionOfBuffer_below (hx : flt x plusZero = true) (hlen : len ≤ 2 ^ 24) :
    fractionOfBuffer draw x len = plusZero := by
  obtain ⟨flen, -⟩ := ITOF_exact hlen
  rw [fractionOfBuffer, clamp01_below hx]
  exact fmul_plusZero draw flen (signBit_roundRatio _ _ _ _)

/-- From 1 on a fraction stands for the whole buffer: L is representable, so nothing is rounded. -/
theorem fractionOfBuffer_full (hn : isNaN x = false) (hx : 1 ≤ toRat x) (hlen : len ≤ 2 ^ 24) :
    toRat (fractionOfBuffer draw x len) = len := by
  obtain ⟨flen, len_eq⟩ := ITOF_exact hlen
  have clamped : max 0 (min 1 (toRat x)) = 1 := by rw [min_eq_left hx, max_eq_right zero_le_one]
  have rounds := fractionOfBuffer_rounds draw hn hlen
  rw [clamped, one_mul, ← len_eq] at rounds
  obtain ⟨-, value⟩ := rounds.exact flen rfl
  exact value.trans len_eq

/-- In [0, 1] the clamp changes nothing, and the product is a value nearest to the exact share. -/
theorem fractionOfBuffer_nearest (hn : isNaN x = false) (h0 : 0 ≤ toRat x) (h1 : toRat x ≤ 1) (hlen : len ≤ 2 ^ 24)
    (c : Binary32) : |toRat (fractionOfBuffer draw x len) - toRat x * len| ≤ |toRat c - toRat x * len| := by
  obtain ⟨finite, -⟩ := fractionOfBuffer_finite draw hn hlen
  have clamped : max 0 (min 1 (toRat x)) = toRat x := by rw [min_eq_right h1, max_eq_right h0]
  have rounds := fractionOfBuffer_rounds draw hn hlen
  rw [clamped] at rounds
  obtain ⟨nearest, -⟩ := rounds.nearest finite (c := c)
  exact nearest

/-- The truncated product does not saturate and has no sign, so it is the floor. -/
theorem FTOI_fractionOfBuffer (hn : isNaN x = false) (hlen : len ≤ 2 ^ 24) :
    FTOI (fractionOfBuffer draw x len) = ⌊toRat (fractionOfBuffer draw x len)⌋ := by
  obtain ⟨finite, nonneg, le_len⟩ := fractionOfBuffer_finite draw hn hlen
  have small : (len : ℚ) < 2 ^ 31 := by exact_mod_cast hlen.trans_lt (by norm_num)
  exact FTOI_floor (not_isNaN_of_finite finite) nonneg (le_len.trans_lt small)

end Fraction

/-- Settles O21: the stored range is the product of `fractionOfBuffer`, a law of it a clause. -/
theorem rangeSetterStoresClampedShare : Obligations.RangeSetterStoresClampedShare := by
  intro x s hs hlen
  refine ⟨fractionOfBuffer (coreParams.nan s.draws .rangeProduct) x s.bufLen, exec_setter_next rfl hs,
    fractionOfBuffer_nan _, fun hn => ?notNan⟩
  case notNan =>
    obtain ⟨finite, nonneg, le_len⟩ := fractionOfBuffer_finite (coreParams.nan s.draws .rangeProduct) hn hlen
    refine ⟨finite, nonneg, le_len, fun hx => fractionOfBuffer_below _ hx hlen, fun hx => ?above, fun h0 h1 =>
      fractionOfBuffer_nearest _ hn h0 h1 hlen⟩
    case above =>
      have above := (fgt_iff_of_not_nan hn (by decide)).mp hx
      exact fractionOfBuffer_full _ hn (toRat_one ▸ above.le) hlen

/-- Settles O22: the stored offset is the truncated product, which no draw changes. -/
theorem offsetSetterStoresTruncatedShare : Obligations.OffsetSetterStoresTruncatedShare := by
  intro x s hs hlen
  refine ⟨(FTOI (fractionOfBuffer (coreParams.nan s.draws .offsetProduct) x s.bufLen)).toNat, exec_setter_next rfl hs,
    FTOI_fractionOfBuffer_le _ x hlen, fun hn => ?nan, fun hn draw => ?floor, fun hx => ?below, fun hx => ?full⟩
  case nan => rw [FTOI_nan (fractionOfBuffer_nan _ hn), Int.toNat_zero]
  case floor =>
    obtain ⟨-, nonneg, -⟩ := fractionOfBuffer_finite draw hn hlen
    rw [fractionOfBuffer, FTOI_fmul_draw _ draw, ← fractionOfBuffer, Int.toNat_of_nonneg (FTOI_nonneg (.inr nonneg))]
    exact FTOI_fractionOfBuffer draw hn hlen
  case below =>
    rw [fractionOfBuffer_below _ hx hlen]
    decide
  case full =>
    have hn : isNaN x = false := Bool.eq_false_iff.mpr fun h => by rw [fge_nan (.inl h)] at hx; cases hx
    have full := (fge_iff_of_not_nan hn (by decide)).mp hx
    rw [FTOI_fractionOfBuffer _ hn hlen, fractionOfBuffer_full _ hn (toRat_one ▸ full) hlen, Int.floor_natCast,
      Int.toNat_natCast]

/-! ### Two setters, one after the other (R136) -/

section TwoSetters

variable (p : Params) {i j : Instr}

/-- A setter writes no `rsp` and reads none. -/
theorem setterWrite_respond (i : Instr) (s : State) (st : Status) (data : BitVec 32) :
    (s.respond st data).setterWrite p i = (s.setterWrite p i).respond st data := by
  cases i with
  | init _ | process | setcf _ | setmf _ | setmr _ | setmo _ | setsync _ | setincl _ => rfl

/-- Two accepted setters make both writes, and the second response covers the first. -/
theorem setters_andThen (hi : isSetter i = true) (hj : isSetter j = true) {s : State} (hs : s.initialized = true) :
    (execWith p i s).andThen (execWith p j) = .next (((s.setterWrite p i).setterWrite p j).respond .ok 0#32) := by
  rw [execWith_setter_next p hi hs, Result.andThen, execWith_setter_next p hj (by simpa using hs), setterWrite_respond]
  rfl

/-- SETMO truncates its product, so it does not see that SETMR has raised the draw count. -/
theorem setterWrite_setmo_setmr (x y : Binary32) (s : State) :
    (s.setterWrite p (.setmr x)).setterWrite p (.setmo y) = (s.setterWrite p (.setmo y)).setterWrite p (.setmr x) := by
  simp only [State.setterWrite, fractionOfBuffer]
  rw [FTOI_fmul_draw (p.nan (s.draws + 1) .offsetProduct) (p.nan s.draws .offsetProduct)]

/-- Writes of different registers commute: only SETMR and SETMO share a field, the draw count. -/
theorem setterWrite_comm (h : i.mnemonic ≠ j.mnemonic) (s : State) :
    (s.setterWrite p i).setterWrite p j = (s.setterWrite p j).setterWrite p i := by
  cases i with
  | init _ | process => rfl
  | setcf _ => cases j with
    | setcf _ => exact absurd rfl h
    | _ => rfl
  | setmf _ => cases j with
    | setmf _ => exact absurd rfl h
    | _ => rfl
  | setmr x => cases j with
    | setmr _ => exact absurd rfl h
    | setmo y => exact setterWrite_setmo_setmr p x y s
    | _ => rfl
  | setmo y => cases j with
    | setmo _ => exact absurd rfl h
    | setmr x => exact (setterWrite_setmo_setmr p x y s).symm
    | _ => rfl
  | setsync _ => cases j with
    | setsync _ => exact absurd rfl h
    | _ => rfl
  | setincl _ => cases j with
    | setincl _ => exact absurd rfl h
    | _ => rfl

/-- Of two writes of one register the second alone is left, SETMR's draw count apart. -/
theorem setterWrite_setterWrite (h : i.mnemonic = j.mnemonic) (hne : i.mnemonic ≠ "SETMR") (s : State) :
    (s.setterWrite p i).setterWrite p j = s.setterWrite p j := by
  cases i with
  | init _ | process => rfl
  | setmr _ => exact absurd rfl hne
  | setcf _ => cases j with
    | setcf _ => rfl
    | _ => simp [Instr.mnemonic] at h
  | setmf _ => cases j with
    | setmf _ => rfl
    | _ => simp [Instr.mnemonic] at h
  | setmo _ => cases j with
    | setmo _ => rfl
    | _ => simp [Instr.mnemonic] at h
  | setsync _ => cases j with
    | setsync _ => rfl
    | _ => simp [Instr.mnemonic] at h
  | setincl _ => cases j with
    | setincl _ => rfl
    | _ => simp [Instr.mnemonic] at h

end TwoSetters

/-- Settles O24: what two accepted setters leave is decided by their writes alone. -/
theorem settersAreIndependentAndTheLastWins : Obligations.SettersAreIndependentAndTheLastWins := by
  intro p i j s hs hi hj
  refine ⟨fun hne => ?_, fun heq hrange => ?_⟩
  · rw [setters_andThen p hi hj hs, setters_andThen p hj hi hs, setterWrite_comm p hne]
  · rw [setters_andThen p hi hj hs, setterWrite_setterWrite p heq hrange, execWith_setter_next p hj hs]

/-- Settles O20: each setter's write is its operand in its register. -/
theorem verbatimSettersStoreTheOperand : Obligations.VerbatimSettersStoreTheOperand := fun _ _ _ hs =>
  ⟨exec_setter_next rfl hs, exec_setter_next rfl hs, exec_setter_next rfl hs, exec_setter_next rfl hs⟩

end Sys2Proof.Machine

/-! The proofs of the statements about 60_exceptions.md: when each of the three exceptions is raised (R151 to R153), and what
taking one changes (R155). -/

namespace Sys2Proof.Machine

open Sys2Proof.Config (Params)

/-! ### What a word that is answered presents (R155) -/

/-- A word that is answered was rejected, with the whole next state given, or its response has the status OK. -/
theorem WordEffect.rejected_or_ok {p : Params} {w : CommandWord} {s t : State} (h : WordEffect p w s t) :
    (∃ e, t = { s with errSticky := true, rsp := some (responseWord (.error e) 0#32) }) ∨
      ∃ data, t.rsp = some (responseWord .ok data) := by
  cases h with
  | rejected e => exact .inl ⟨e, rfl⟩
  | initialised _ _ => exact .inr ⟨0#32, rfl⟩
  | registerSet _ _ _ => exact .inr ⟨0#32, rfl⟩
  | processed _ _ _ sample => exact .inr ⟨sample, rfl⟩

/-- Settles O52: a status other than OK leaves of a word's effects the rejection alone. -/
theorem rejectedCommandChangesNothing : Obligations.RejectedCommandChangesNothing := by
  intro p s t w r h hr hstatus
  rcases (runWordWith_effect h).rejected_or_ok with ⟨e, rfl⟩ | ⟨data, hok⟩
  · obtain rfl := Option.some.inj hr
    exact ⟨rfl, responseData_word _ _⟩
  · obtain rfl := Option.some.inj (hok.symm.trans hr)
    exact absurd (responseStatus_word .ok data) hstatus

/-! ### ERR_ILLEGAL_CMD (R151) -/

/-- Settles O8: the three kinds are the words the decoder refuses, and the port runs the word with the host's move taken. -/
theorem stepRejectsIllegalWord : Obligations.StepRejectsIllegalWord := by
  intro s w rest hhost hrsp hkind
  have illegal : IllegalWord w := by rwa [IllegalWord, IllegalFields, extractLsb'_operandField]
  calc step s = runWord w { s with host := rest } := portStep_command runWord hhost hrsp
    _ = .next { s with host := rest, errSticky := true, rsp := some 0x100000000#36 } :=
      runWord_illegal ((decode_error_iff_illegal w).mpr illegal) _

/-! ### ERR_NOT_INIT (R152) -/

/-- Settles O23: the core's meaning is the parametric one, whose rejection is the same for every command but INIT. -/
theorem uninitialisedCommandsAreRejected : Obligations.UninitialisedCommandsAreRejected := by
  intro i s hs hi
  have response : responseWord (.error .notInit) 0#32 = 0x200000000#36 := by decide
  rw [exec_eq_execWith, execWith_uninitialized coreParams hs hi, raise_eq, response]

/-! ### ERR_BAD_RATE (R153) -/

/-- The tests `<` and `>=` of one pair never both hold, though on a NaN both fail (R6). -/
theorem fge_eq_false_of_flt {a b : Binary32} (h : flt a b = true) : fge a b = false := by
  simp only [flt, Bool.and_eq_true, decide_eq_true_eq] at h
  obtain ⟨-, hlt⟩ := h
  simp [fge, hlt]

/-- Each of R153's causes fails one of the four tests of R91. -/
theorem initOperandLegal_eq_false_of_badRate {bufMax : Nat} {rate : Binary32}
    (h : isNaN rate = true ∨ isInf rate = true ∨ flt rate two = true ∨ bufMax < FLOORI rate) :
    initOperandLegal bufMax rate = false := by
  rw [← Bool.not_eq_true, initOperandLegal_iff_tests]
  rintro ⟨not_nan, not_inf, at_least_two, fits⟩
  rcases h with nan | inf | below_two | above
  · exact absurd nan (Bool.eq_false_iff.mp not_nan)
  · exact absurd inf (Bool.eq_false_iff.mp not_inf)
  · exact absurd at_least_two (Bool.eq_false_iff.mp (fge_eq_false_of_flt below_two))
  · exact absurd fits above.not_ge

/-- Settles O18: a bad rate fails INIT's test, and INIT then raises before it writes anything. -/
theorem initRejectsBadRate : Obligations.InitRejectsBadRate := by
  intro rate s hbad
  have response : responseWord (.error .badRate) 0#32 = 0x300000000#36 := by decide
  calc exec (.init rate) s = initWith coreParams rate s := exec_eq_execWith (.init rate) s
    _ = raise .badRate s := initWith_illegal coreParams s (initOperandLegal_eq_false_of_badRate hbad)
    _ = .next { s with errSticky := true, rsp := some 0x300000000#36 } := by rw [raise_eq, response]

end Sys2Proof.Machine
